-- ==== Sys2Proof/Word.lean ====
section
/-! DEFINITION. The word types of the core: values are unsigned with a stated width (00_scope.md R6, R7). -/

namespace Sys2Proof

/-- A u8: a byte of memory, a general register, a timer (R7). -/
abbrev Byte := BitVec 8

/-- A u16: an instruction word, `pc`, `I`, a call stack slot (R7). -/
abbrev Word := BitVec 16

/-- A u4: a register number X or Y, the row count N, a key index (R6). -/
abbrev Nibble := BitVec 4

/-- A u12: the immediate NNN (R6). -/
abbrev Addr12 := BitVec 12

/-- The register number of VF, the flag register (10_state.md R22). -/
abbrev regF : Nibble := 0xF#4

end Sys2Proof
end

