-- ==== Sys2Proof/Syntax.lean ====
section
/-! DEFINITION. The 35 instructions (00_scope.md R2), one constructor per row of spec/opcode_table.json, in the order
of its rows. Operand fields have the widths of 30_encoding.md R73 and R74. -/

namespace Sys2Proof

/-- One instruction. `x` and `y` are register numbers, `nn` the low byte, `nnn` the low 12 bits, `n` the row count. -/
inductive Instr where
  /-- 0000, R100. -/
  | nop
  /-- 00E0, R180. -/
  | cls
  /-- 00EE, R101. -/
  | ret
  /-- 1NNN, R102. -/
  | jp (nnn : Addr12)
  /-- 2NNN, R103. -/
  | call (nnn : Addr12)
  /-- 3XNN, R104. -/
  | seImm (x : Nibble) (nn : Byte)
  /-- 4XNN, R105. -/
  | sneImm (x : Nibble) (nn : Byte)
  /-- 5XY0, R106. -/
  | seReg (x y : Nibble)
  /-- 6XNN, R130. -/
  | ldImm (x : Nibble) (nn : Byte)
  /-- 7XNN, R131. -/
  | addImm (x : Nibble) (nn : Byte)
  /-- 8XY0, R132. -/
  | ldReg (x y : Nibble)
  /-- 8XY1, R133. -/
  | orReg (x y : Nibble)
  /-- 8XY2, R134. -/
  | andReg (x y : Nibble)
  /-- 8XY3, R135. -/
  | xorReg (x y : Nibble)
  /-- 8XY4, R136. -/
  | addReg (x y : Nibble)
  /-- 8XY5, R137. -/
  | subReg (x y : Nibble)
  /-- 8XY6, R138. The field Y is decoded and ignored (R78); it is kept so that no bit of the word is lost. -/
  | shr (x y : Nibble)
  /-- 8XY7, R139. -/
  | subnReg (x y : Nibble)
  /-- 8XYE, R140. The field Y is decoded and ignored (R78); it is kept so that no bit of the word is lost. -/
  | shl (x y : Nibble)
  /-- 9XY0, R107. -/
  | sneReg (x y : Nibble)
  /-- ANNN, R160. -/
  | ldI (nnn : Addr12)
  /-- BNNN, R108. -/
  | jpV0 (nnn : Addr12)
  /-- CXNN, R141. -/
  | rnd (x : Nibble) (nn : Byte)
  /-- DXYN, R181. -/
  | drw (x y n : Nibble)
  /-- EX9E, R190. -/
  | skp (x : Nibble)
  /-- EXA1, R191. -/
  | sknp (x : Nibble)
  /-- FX07, R192. -/
  | ldVxDt (x : Nibble)
  /-- FX0A, R193. -/
  | ldVxK (x : Nibble)
  /-- FX15, R194. -/
  | ldDtVx (x : Nibble)
  /-- FX18, R195. -/
  | ldStVx (x : Nibble)
  /-- FX1E, R161. -/
  | addI (x : Nibble)
  /-- FX29, R162. -/
  | ldF (x : Nibble)
  /-- FX33, R163. -/
  | ldB (x : Nibble)
  /-- FX55, R164. -/
  | stRegs (x : Nibble)
  /-- FX65, R165. -/
  | ldRegs (x : Nibble)
  deriving DecidableEq, Repr

/-- The instruction's name in spec/opcode_table.json. -/
def Instr.mnemonic : Instr → String
  | .nop => "NOP"
  | .cls => "CLS"
  | .ret => "RET"
  | .jp _ => "JP"
  | .call _ => "CALL"
  | .seImm _ _ => "SE_IMM"
  | .sneImm _ _ => "SNE_IMM"
  | .seReg _ _ => "SE_REG"
  | .ldImm _ _ => "LD_IMM"
  | .addImm _ _ => "ADD_IMM"
  | .ldReg _ _ => "LD_REG"
  | .orReg _ _ => "OR"
  | .andReg _ _ => "AND"
  | .xorReg _ _ => "XOR"
  | .addReg _ _ => "ADD_REG"
  | .subReg _ _ => "SUB"
  | .shr _ _ => "SHR"
  | .subnReg _ _ => "SUBN"
  | .shl _ _ => "SHL"
  | .sneReg _ _ => "SNE_REG"
  | .ldI _ => "LD_I"
  | .jpV0 _ => "JP_V0"
  | .rnd _ _ => "RND"
  | .drw _ _ _ => "DRW"
  | .skp _ => "SKP"
  | .sknp _ => "SKNP"
  | .ldVxDt _ => "LD_VX_DT"
  | .ldVxK _ => "LD_VX_K"
  | .ldDtVx _ => "LD_DT_VX"
  | .ldStVx _ => "LD_ST_VX"
  | .addI _ => "ADD_I"
  | .ldF _ => "LD_F"
  | .ldB _ => "LD_B"
  | .stRegs _ => "ST_REGS"
  | .ldRegs _ => "LD_REGS"

end Sys2Proof
end

