-- ==== Sys2Proof/WellFormed.lean ====
section
/-! DEFINITION. Well-formed instructions: every operand fits the field that holds it (30_encoding.md R73, R74).
The operand types already have those widths, so every `Instr` is well-formed (Laws/PerInstr.lean proves it); the
check itself is on an operand as a number, where a value too wide for its field is refused. -/

namespace Sys2Proof

/-- An operand as an assembler writes it: a number, for one of the four kinds of field of R74. -/
inductive Operand where
  /-- X or Y, a register number in a 4-bit field. -/
  | register (value : Nat)
  /-- N, a row count in a 4-bit field. -/
  | count (value : Nat)
  /-- NN, an immediate in an 8-bit field. -/
  | byte (value : Nat)
  /-- NNN, an address in a 12-bit field. -/
  | address (value : Nat)
  deriving DecidableEq, Repr

/-- The operand fits its field: 0 to 15, 0 to 15, 0 to 255, 0x000 to 0xFFF (R74). -/
def Operand.fits : Operand → Bool
  | .register v => decide (v < 16)
  | .count v => decide (v < 16)
  | .byte v => decide (v < 256)
  | .address v => decide (v < 4096)

/-- The operands of an instruction, in the order of its syntax (30_encoding.md R82); an ignored Y is one of them. -/
def Instr.operands : Instr → List Operand
  | .nop | .cls | .ret => []
  | .jp nnn | .call nnn | .ldI nnn | .jpV0 nnn => [.address nnn.toNat]
  | .seImm x nn | .sneImm x nn | .ldImm x nn | .addImm x nn | .rnd x nn => [.register x.toNat, .byte nn.toNat]
  | .seReg x y | .sneReg x y | .ldReg x y | .orReg x y | .andReg x y | .xorReg x y | .addReg x y | .subReg x y
  | .shr x y | .subnReg x y | .shl x y => [.register x.toNat, .register y.toNat]
  | .drw x y n => [.register x.toNat, .register y.toNat, .count n.toNat]
  | .skp x | .sknp x | .ldVxDt x | .ldVxK x | .ldDtVx x | .ldStVx x | .addI x | .ldF x | .ldB x | .stRegs x
  | .ldRegs x => [.register x.toNat]

/-- Every operand fits its field. -/
def WellFormed (i : Instr) : Bool := i.operands.all Operand.fits

end Sys2Proof
end

