-- ==== Sys2Proof/Decode.lean ====
section
/-! DEFINITION. Decode (30_encoding.md R72 to R80): total on any bytes, rejecting by name; then the encoder, written
from the layouts of R73; then the opcode table as rows, as spec/opcode_table.json gives it. -/

namespace Sys2Proof

/-! ## Fields of a word (R6, R72) -/

/-- `op[15:12]`, which selects the family (R72). -/
def digit1 (op : Word) : Nibble := op.extractLsb' 12 4
/-- `op[11:8]`: X (R73). -/
def digit2 (op : Word) : Nibble := op.extractLsb' 8 4
/-- `op[7:4]`: Y (R73). -/
def digit3 (op : Word) : Nibble := op.extractLsb' 4 4
/-- `op[3:0]`: N or the sub-opcode (R73). -/
def digit4 (op : Word) : Nibble := op.extractLsb' 0 4
/-- `op[7:0]`: NN (R73). -/
def lowByte (op : Word) : Byte := op.extractLsb' 0 8
/-- `op[11:0]`: NNN (R73). -/
def low12 (op : Word) : Addr12 := op.extractLsb' 0 12

/-! ## Decoding -/

/-- Why bytes are no instruction: fewer than two bytes, or one of the five families of illegal words of R77. -/
inductive Reject where
  /-- Fewer than two bytes (R80: every instruction is exactly two bytes). -/
  | truncated
  /-- d1 = 0 and the word is none of 0x0000, 0x00E0, 0x00EE. -/
  | zeroFamily (op : Word)
  /-- d1 = 5 or 9 with d4 ≠ 0. -/
  | skipRegisterFamily (op : Word)
  /-- d1 = 8 with d4 none of 0 to 7 and E. -/
  | aluFamily (op : Word)
  /-- d1 = E with a low byte other than 0x9E and 0xA1. -/
  | keyFamily (op : Word)
  /-- d1 = F with a low byte none of the nine. -/
  | miscFamily (op : Word)
  deriving DecidableEq, Repr

/-- d1 = 0: the whole word selects (R76). -/
def decodeZero (op : Word) : Except Reject Instr :=
  if op = 0x0000#16 then .ok .nop
  else if op = 0x00E0#16 then .ok .cls
  else if op = 0x00EE#16 then .ok .ret
  else .error (.zeroFamily op)

/-- d1 = 5 or 9: d4 must be 0 (R75). -/
def decodeSkipRegister (op : Word) (i : Instr) : Except Reject Instr :=
  if digit4 op = 0x0#4 then .ok i else .error (.skipRegisterFamily op)

/-- d1 = 8: d4 selects (R76). -/
def decodeAlu (op : Word) : Except Reject Instr :=
  let x := digit2 op
  let y := digit3 op
  if digit4 op = 0x0#4 then .ok (.ldReg x y)
  else if digit4 op = 0x1#4 then .ok (.orReg x y)
  else if digit4 op = 0x2#4 then .ok (.andReg x y)
  else if digit4 op = 0x3#4 then .ok (.xorReg x y)
  else if digit4 op = 0x4#4 then .ok (.addReg x y)
  else if digit4 op = 0x5#4 then .ok (.subReg x y)
  else if digit4 op = 0x6#4 then .ok (.shr x y)
  else if digit4 op = 0x7#4 then .ok (.subnReg x y)
  else if digit4 op = 0xE#4 then .ok (.shl x y)
  else .error (.aluFamily op)

/-- d1 = E: the low byte selects (R76). -/
def decodeKey (op : Word) : Except Reject Instr :=
  if lowByte op = 0x9E#8 then .ok (.skp (digit2 op))
  else if lowByte op = 0xA1#8 then .ok (.sknp (digit2 op))
  else .error (.keyFamily op)

/-- d1 = F: the low byte selects (R76). -/
def decodeMisc (op : Word) : Except Reject Instr :=
  let x := digit2 op
  if lowByte op = 0x07#8 then .ok (.ldVxDt x)
  else if lowByte op = 0x0A#8 then .ok (.ldVxK x)
  else if lowByte op = 0x15#8 then .ok (.ldDtVx x)
  else if lowByte op = 0x18#8 then .ok (.ldStVx x)
  else if lowByte op = 0x1E#8 then .ok (.addI x)
  else if lowByte op = 0x29#8 then .ok (.ldF x)
  else if lowByte op = 0x33#8 then .ok (.ldB x)
  else if lowByte op = 0x55#8 then .ok (.stRegs x)
  else if lowByte op = 0x65#8 then .ok (.ldRegs x)
  else .error (.miscFamily op)

/-- Decode a word: dispatch on d1 (R75). -/
def decodeWord (op : Word) : Except Reject Instr :=
  if digit1 op = 0x0#4 then decodeZero op
  else if digit1 op = 0x1#4 then .ok (.jp (low12 op))
  else if digit1 op = 0x2#4 then .ok (.call (low12 op))
  else if digit1 op = 0x3#4 then .ok (.seImm (digit2 op) (lowByte op))
  else if digit1 op = 0x4#4 then .ok (.sneImm (digit2 op) (lowByte op))
  else if digit1 op = 0x5#4 then decodeSkipRegister op (.seReg (digit2 op) (digit3 op))
  else if digit1 op = 0x6#4 then .ok (.ldImm (digit2 op) (lowByte op))
  else if digit1 op = 0x7#4 then .ok (.addImm (digit2 op) (lowByte op))
  else if digit1 op = 0x8#4 then decodeAlu op
  else if digit1 op = 0x9#4 then decodeSkipRegister op (.sneReg (digit2 op) (digit3 op))
  else if digit1 op = 0xA#4 then .ok (.ldI (low12 op))
  else if digit1 op = 0xB#4 then .ok (.jpV0 (low12 op))
  else if digit1 op = 0xC#4 then .ok (.rnd (digit2 op) (lowByte op))
  else if digit1 op = 0xD#4 then .ok (.drw (digit2 op) (digit3 op) (digit4 op))
  else if digit1 op = 0xE#4 then decodeKey op
  else decodeMisc op

/-- Two bytes as an instruction word, big-endian: the first is bits 15:8 (20_memory.md R53). -/
def wordOfBytes (hi lo : Byte) : Word := hi ++ lo

/-- The bytes of a word as memory holds it, the byte at the lower address first (R53). -/
def bytesOfWord (op : Word) : List Byte := [op.extractLsb' 8 8, op.extractLsb' 0 8]

/-- Decode the instruction at the head of a list of bytes, answering it and the bytes after it (R80). -/
def decode : List Byte → Except Reject (Instr × List Byte)
  | hi :: lo :: rest =>
    match decodeWord (wordOfBytes hi lo) with
    | .ok i => .ok (i, rest)
    | .error e => .error e
  | _ => .error .truncated

/-- The instruction word of a table row's bits: the low `nbits` bits of `w`, every higher bit 0. -/
def tableWord (nbits w : Nat) : Word := BitVec.ofNat 16 (w % 2 ^ nbits)

/-- What the decoder reads from an instruction whose bits are `w`, numbered as spec/opcode_table.json numbers them. -/
def decodeTableWord (nbits w : Nat) : Option Instr :=
  match decode (bytesOfWord (tableWord nbits w)) with
  | .ok (i, _) => some i
  | .error _ => none

/-! ## Encoding: the layouts of R73 -/

/-- Layout A: d1, NNN. -/
def layoutA (d1 : Nibble) (nnn : Addr12) : Word := d1 ++ nnn
/-- Layout XK: d1, X, NN. -/
def layoutXK (d1 x : Nibble) (nn : Byte) : Word := d1 ++ (x ++ nn)
/-- Layouts XY and XYN: d1, X, Y, sub-opcode or N. -/
def layoutXY (d1 x y d4 : Nibble) : Word := d1 ++ (x ++ (y ++ d4))

/-- The word of an instruction (R73 and the patterns of spec/opcode_table.json). Layout XS is XK with a fixed byte. -/
def encode : Instr → Word
  | .nop => 0x0000#16
  | .cls => 0x00E0#16
  | .ret => 0x00EE#16
  | .jp nnn => layoutA 0x1 nnn
  | .call nnn => layoutA 0x2 nnn
  | .seImm x nn => layoutXK 0x3 x nn
  | .sneImm x nn => layoutXK 0x4 x nn
  | .seReg x y => layoutXY 0x5 x y 0x0
  | .ldImm x nn => layoutXK 0x6 x nn
  | .addImm x nn => layoutXK 0x7 x nn
  | .ldReg x y => layoutXY 0x8 x y 0x0
  | .orReg x y => layoutXY 0x8 x y 0x1
  | .andReg x y => layoutXY 0x8 x y 0x2
  | .xorReg x y => layoutXY 0x8 x y 0x3
  | .addReg x y => layoutXY 0x8 x y 0x4
  | .subReg x y => layoutXY 0x8 x y 0x5
  | .shr x y => layoutXY 0x8 x y 0x6
  | .subnReg x y => layoutXY 0x8 x y 0x7
  | .shl x y => layoutXY 0x8 x y 0xE
  | .sneReg x y => layoutXY 0x9 x y 0x0
  | .ldI nnn => layoutA 0xA nnn
  | .jpV0 nnn => layoutA 0xB nnn
  | .rnd x nn => layoutXK 0xC x nn
  | .drw x y n => layoutXY 0xD x y n
  | .skp x => layoutXK 0xE x 0x9E
  | .sknp x => layoutXK 0xE x 0xA1
  | .ldVxDt x => layoutXK 0xF x 0x07
  | .ldVxK x => layoutXK 0xF x 0x0A
  | .ldDtVx x => layoutXK 0xF x 0x15
  | .ldStVx x => layoutXK 0xF x 0x18
  | .addI x => layoutXK 0xF x 0x1E
  | .ldF x => layoutXK 0xF x 0x29
  | .ldB x => layoutXK 0xF x 0x33
  | .stRegs x => layoutXK 0xF x 0x55
  | .ldRegs x => layoutXK 0xF x 0x65

/-! ## The opcode table as rows, and the illegal words as R77 lists them -/

/-- A row of spec/opcode_table.json: the words `w` with `w &&& mask = pattern`. -/
structure OpcodeRow where
  mnemonic : String
  pattern : Word
  mask : Word
  deriving DecidableEq, Repr

/-- The word matches the row. -/
def OpcodeRow.matches (r : OpcodeRow) (op : Word) : Bool := op &&& r.mask == r.pattern

/-- Rows of the families 0 to 7 and 9 to D. -/
def opcodeRowsMain : List OpcodeRow :=
  [⟨"NOP", 0x0000, 0xFFFF⟩, ⟨"CLS", 0x00E0, 0xFFFF⟩, ⟨"RET", 0x00EE, 0xFFFF⟩, ⟨"JP", 0x1000, 0xF000⟩,
   ⟨"CALL", 0x2000, 0xF000⟩, ⟨"SE_IMM", 0x3000, 0xF000⟩, ⟨"SNE_IMM", 0x4000, 0xF000⟩, ⟨"SE_REG", 0x5000, 0xF00F⟩] ++
  [⟨"LD_IMM", 0x6000, 0xF000⟩, ⟨"ADD_IMM", 0x7000, 0xF000⟩, ⟨"SNE_REG", 0x9000, 0xF00F⟩, ⟨"LD_I", 0xA000, 0xF000⟩,
   ⟨"JP_V0", 0xB000, 0xF000⟩, ⟨"RND", 0xC000, 0xF000⟩, ⟨"DRW", 0xD000, 0xF000⟩]

/-- Rows of the family 8. -/
def opcodeRowsAlu : List OpcodeRow :=
  [⟨"LD_REG", 0x8000, 0xF00F⟩, ⟨"OR", 0x8001, 0xF00F⟩, ⟨"AND", 0x8002, 0xF00F⟩, ⟨"XOR", 0x8003, 0xF00F⟩,
   ⟨"ADD_REG", 0x8004, 0xF00F⟩, ⟨"SUB", 0x8005, 0xF00F⟩, ⟨"SHR", 0x8006, 0xF00F⟩, ⟨"SUBN", 0x8007, 0xF00F⟩,
   ⟨"SHL", 0x800E, 0xF00F⟩]

/-- Rows of the families E and F. -/
def opcodeRowsMisc : List OpcodeRow :=
  [⟨"SKP", 0xE09E, 0xF0FF⟩, ⟨"SKNP", 0xE0A1, 0xF0FF⟩, ⟨"LD_VX_DT", 0xF007, 0xF0FF⟩, ⟨"LD_VX_K", 0xF00A, 0xF0FF⟩,
   ⟨"LD_DT_VX", 0xF015, 0xF0FF⟩, ⟨"LD_ST_VX", 0xF018, 0xF0FF⟩, ⟨"ADD_I", 0xF01E, 0xF0FF⟩, ⟨"LD_F", 0xF029, 0xF0FF⟩,
   ⟨"LD_B", 0xF033, 0xF0FF⟩, ⟨"ST_REGS", 0xF055, 0xF0FF⟩, ⟨"LD_REGS", 0xF065, 0xF0FF⟩]

/-- The opcode table (R2, R75, R76). -/
def opcodeTable : List OpcodeRow := opcodeRowsMain ++ opcodeRowsAlu ++ opcodeRowsMisc

/-- The illegal words, written from the five bullets of R77 on the word as a number. -/
def IllegalWord (op : Word) : Prop :=
  let d1 := op.toNat / 4096
  let d4 := op.toNat % 16
  let low := op.toNat % 256
  (d1 = 0x0 ∧ op.toNat ∉ [0x0000, 0x00E0, 0x00EE]) ∨
  ((d1 = 0x5 ∨ d1 = 0x9) ∧ d4 ≠ 0) ∨
  (d1 = 0x8 ∧ d4 ∈ [0x8, 0x9, 0xA, 0xB, 0xC, 0xD, 0xF]) ∨
  (d1 = 0xE ∧ low ∉ [0x9E, 0xA1]) ∨
  (d1 = 0xF ∧ low ∉ [0x07, 0x0A, 0x15, 0x18, 0x1E, 0x29, 0x33, 0x55, 0x65])

end Sys2Proof
end

