-- ==== Sys2Proof/Config.lean ====
section
/-! DEFINITION. What is fixed for this core (00_scope.md R5) and the two open parameters: the font bytes and the
random source. The third open parameter, the schedule, is an argument of `Machine.runSchedule`. -/

namespace Sys2Proof.Config

/-- MEM_SIZE: the bytes of memory, addresses 0x000 to 0xFFF (R5, 10_state.md R32). -/
def memSize : Nat := 4096

/-- PROG_BASE: where LOAD writes and where `pc` starts (R5). -/
def progBase : Nat := 0x200

/-- PROG_MAX: the largest program LOAD accepts, 0x1000 − 0x200 (R5, 60_exceptions.md R232). -/
def progMax : Nat := 3584

/-- `pc` after reset (70_reset_and_hazards.md R251). -/
def resetPc : Word := 0x200#16

/-- The 80 font bytes FONT_ROM (10_state.md R33). -/
abbrev FontRom := Vector Byte 80

/-- Glyphs 0 to 3 of the default table of R33. PRESUMED (log entry 2). -/
def fontGlyphs03 : List Byte :=
  [0xF0, 0x90, 0x90, 0x90, 0xF0] ++ [0x20, 0x60, 0x20, 0x20, 0x70] ++
  [0xF0, 0x10, 0xF0, 0x80, 0xF0] ++ [0xF0, 0x10, 0xF0, 0x10, 0xF0]

/-- Glyphs 4 to 7 of the default table of R33. PRESUMED (log entry 2). -/
def fontGlyphs47 : List Byte :=
  [0x90, 0x90, 0xF0, 0x10, 0x10] ++ [0xF0, 0x80, 0xF0, 0x10, 0xF0] ++
  [0xF0, 0x80, 0xF0, 0x90, 0xF0] ++ [0xF0, 0x10, 0x20, 0x40, 0x40]

/-- Glyphs 8 to B of the default table of R33. PRESUMED (log entry 2). -/
def fontGlyphs8B : List Byte :=
  [0xF0, 0x90, 0xF0, 0x90, 0xF0] ++ [0xF0, 0x90, 0xF0, 0x10, 0xF0] ++
  [0xF0, 0x90, 0xF0, 0x90, 0x90] ++ [0xE0, 0x90, 0xE0, 0x90, 0xE0]

/-- Glyphs C to F of the default table of R33. PRESUMED (log entry 2). -/
def fontGlyphsCF : List Byte :=
  [0xF0, 0x80, 0x80, 0x80, 0xF0] ++ [0xE0, 0x90, 0x90, 0x90, 0xE0] ++
  [0xF0, 0x80, 0xF0, 0x80, 0xF0] ++ [0xF0, 0x80, 0xF0, 0x80, 0x80]

/-- The default of the parameter FONT_ROM. PRESUMED: the conventional CHIP-8 hex font, which R33 itself takes from
general knowledge (log entry 2, unsafe). Another font is `Machine.State.resetWith`. -/
def defaultFontRom : FontRom :=
  ⟨(fontGlyphs03 ++ fontGlyphs47 ++ fontGlyphs8B ++ fontGlyphsCF).toArray, by decide⟩

/-- What a byte of memory reads as after reset, and so what an address the memory list does not hold reads as:
the font at 0x000 to 0x04F, zero elsewhere (10_state.md R37, 70_reset_and_hazards.md R251; log entries 2, 3). -/
def resetByte (a : Nat) : Byte := if h : a < 80 then defaultFontRom[a] else 0

/-- The random source: the value of draw number `n`. Uninterpreted, so nothing about it can be proved: a free draw of
each STEP, under no law (41_alu.md R141, 60_exceptions.md R233, 92_eei_decisions.md D15; log entry 1). -/
opaque freeRnd : Nat → Byte

end Sys2Proof.Config
end

