-- ==== Sys2Proof/Machine/State.lean ====
section
/-! DEFINITION. The state of the core (10_state.md R20 to R39) as plain data, the reasons a STEP can stop, and the
state after reset. -/

namespace Sys2Proof.Machine

/-- Memory as (address, byte) pairs: addresses strictly rising, each below 0x1000, no pair equal to what an unlisted
address reads as (`Memory.wf` in Memory.lean). Unlisted addresses read as `Config.resetByte` (log entry 3). -/
abbrev Memory := List Host.Cell

/-- The 64 × 32 boolean grid, row by row: pixel (x, y) is `fb[y][x]`, true meaning on (R35). -/
abbrev Framebuffer := Vector (Vector Bool 64) 32

/-- The state: the ten items of R20, and three inputs of the model's own for the random source (log entry 1). -/
structure State where
  /-- Program counter (R24). -/
  pc : Word
  /-- Memory, 4096 bytes (R32). -/
  mem : Memory
  /-- General registers V0 to VF (R21). -/
  v : Vector Byte 16
  /-- Index register I (R29). -/
  i : Word
  /-- Call stack slots (R30). -/
  stack : Vector Word 16
  /-- Stack pointer: the number of entries in use, 0 to 16 (R30). -/
  sp : Fin 17
  /-- Key latches (R34). -/
  key : Vector Bool 16
  /-- Framebuffer (R35). -/
  fb : Framebuffer
  /-- Delay timer (R36). -/
  dt : Byte
  /-- Sound timer (R36). -/
  st : Byte
  /-- The 8-bit random input of the STEP under way (R8, 60_exceptions.md R233). No state of the core: the model's own
  (log entry 1). -/
  rnd : Byte
  /-- Random inputs the environment has supplied for the coming STEPs, oldest first. The model's own (log entry 1). -/
  rndInputs : List Byte
  /-- How many STEPs have taken a random input, the argument of `Config.freeRnd`. The model's own (log entry 1). -/
  stepCount : Nat
  deriving DecidableEq, Repr

/-- The stack operation a StackBoundsError records (60_exceptions.md R216). -/
inductive StackOp where
  | push
  | pop
  deriving DecidableEq, Repr

/-- The kinds of error, each distinguishable from the others (60_exceptions.md R211). -/
inductive ErrorKind where
  | decode
  | memoryBounds
  | stackBounds
  | keyIndex
  deriving DecidableEq, Repr

/-- The information `info` an error records, of a STEP or of a LOAD (60_exceptions.md R216): a field that is not present
for the error is `none`. -/
structure ErrorInfo where
  code : Nat
  fetchPc : Option Word
  op : Option Word
  addr : Option Nat
  stackOp : Option StackOp
  key : Option Byte
  deriving DecidableEq, Repr

/-- The error a STEP answers with (60_exceptions.md R210, R211), with the information R216 records. The core reports
each of these itself, so stopping with it is what the spec says (93_implementation_defined.md row 1): safe. What a
host that goes on after it finds is `State.afterErr` (R218, log entry 6). -/
inductive Fault where
  /-- DecodeError (R212): raised by the STEP whose word matches no row of the opcode table. Safe. -/
  | decodeError (fetchPc : Word) (op : Word)
  /-- MemoryBoundsError (R213): raised by the fetch (then no word is recorded), and by DRW, LD_B, ST_REGS and LD_REGS.
  `addr` is the lowest address above 0xFFF of the failing access. Safe. -/
  | memoryBounds (fetchPc : Word) (op : Option Word) (addr : Nat)
  /-- StackBoundsError (R214): raised by CALL when SP = 16 and by RET when SP = 0. Safe. -/
  | stackBounds (fetchPc : Word) (op : Word) (stackOp : StackOp)
  /-- KeyIndexError (R215): raised by SKP and SKNP when VX > 0xF. Safe (decision D6 of the spec, log entry 7). -/
  | keyIndex (fetchPc : Word) (op : Word) (key : Byte)
  deriving DecidableEq, Repr

/-- The reasons to refuse an instruction. Every instruction of the table has its meaning, so no STEP answers one. -/
inductive Refusal where
  /-- Answered by `exec` for an instruction that has no meaning yet: none here. Safe. -/
  | notModelled (mnemonic : String)
  deriving DecidableEq, Repr

/-- What a STEP answers: `next` for Ok, `fault` for Err (60_exceptions.md R210). -/
abbrev Result := Host.Outcome State Fault Refusal

/-- The state after INITIALIZE or RESET (10_state.md R37, 70_reset_and_hazards.md R251), with the default FONT_ROM
(log entry 2). The last three fields are the model's own (log entry 1). -/
def State.reset : State where
  pc := Config.resetPc
  mem := []
  v := Vector.replicate 16 0
  i := 0
  stack := Vector.replicate 16 0
  sp := 0
  key := Vector.replicate 16 false
  fb := Vector.replicate 32 (Vector.replicate 64 false)
  dt := 0
  st := 0
  rnd := 0
  rndInputs := []
  stepCount := 0

end Sys2Proof.Machine
end

