-- ==== Sys2Proof/Machine/Memory.lean ====
section
/-! DEFINITION. Memory as a canonical list of bytes over the reset contents (log entry 3), and the memory primitives
of 00_scope.md R9 with the block accesses of 20_memory.md R55. -/

namespace Sys2Proof.Machine

/-- The addresses of the list rise strictly, starting above `low` where there is one. -/
def Memory.sortedFrom : Option Nat → Memory → Bool
  | _, [] => true
  | none, c :: m => Memory.sortedFrom (some c.1) m
  | some low, c :: m => decide (low < c.1) && Memory.sortedFrom (some c.1) m

/-- The canonical form: addresses strictly rising, inside the address space (20_memory.md R50), and no pair equal to
what an unlisted address reads as. Equal memories are then equal lists. -/
def Memory.wf (m : Memory) : Bool :=
  Memory.sortedFrom none m && m.all fun c => decide (c.1 < Config.memSize) && c.2 != Config.resetByte c.1

/-- The byte at an address, listed or not. -/
def Memory.get : Memory → Nat → Byte
  | [], a => Config.resetByte a
  | c :: m, a => if c.1 = a then c.2 else Memory.get m a

/-- Put a pair where its address belongs in a rising list that does not hold the address. -/
def Memory.insert : Memory → Nat → Byte → Memory
  | [], a, b => [(a, b)]
  | c :: m, a, b => if a < c.1 then (a, b) :: c :: m else c :: Memory.insert m a b

/-- Set the byte at an address, keeping the canonical form: the value an unlisted address reads as is not listed. -/
def Memory.put (m : Memory) (a : Nat) (b : Byte) : Memory :=
  let rest := m.filter fun c => c.1 != a
  if b = Config.resetByte a then rest else Memory.insert rest a b

/-- MemRead(a, 1): the byte at the exact address `a`, or the address when it exceeds 0xFFF (R9, R55). -/
def Memory.memRead (m : Memory) (a : Nat) : Except Nat Byte :=
  if a < Config.memSize then .ok (m.get a) else .error a

/-- MemWrite(a, 1, b): memory with the byte at the exact address `a` set, or the address when it exceeds 0xFFF (R9). -/
def Memory.memWrite (m : Memory) (a : Nat) (b : Byte) : Except Nat Memory :=
  if a < Config.memSize then .ok (m.put a b) else .error a

/-- Read `n` bytes at `a`, `a + 1`, … in ascending order (20_memory.md R53, R56); the first address above 0xFFF, which
is the lowest, ends it (R55). -/
def Memory.readBytes (m : Memory) (a : Nat) : Nat → Except Nat (List Byte)
  | 0 => .ok []
  | n + 1 =>
    match m.memRead a with
    | .error e => .error e
    | .ok b =>
      match Memory.readBytes m (a + 1) n with
      | .error e => .error e
      | .ok bs => .ok (b :: bs)

/-- Write bytes at `a`, `a + 1`, … in ascending order; the first address above 0xFFF, which is the lowest, ends it and
no memory is answered, so nothing is written (R55, 00_scope.md R10). -/
def Memory.writeBytes (m : Memory) (a : Nat) : List Byte → Except Nat Memory
  | [] => .ok m
  | b :: bs =>
    match m.memWrite a b with
    | .error e => .error e
    | .ok m' => Memory.writeBytes m' (a + 1) bs

end Sys2Proof.Machine
end

