-- ==== Sys2Proof/Machine/Ops.lean ====
section
/-! DEFINITION. The named operations over registers, call stack, keys, framebuffer and memory (00_scope.md R8), the
fetch (30_encoding.md R70), raising an error and the state it leaves (60_exceptions.md R210 to R219). -/

namespace Sys2Proof.Machine

/-! ## Registers -/

/-- `V[x]` (R8). -/
def State.getV (s : State) (x : Nibble) : Byte := s.v[x.toNat]'x.isLt

/-- `V[x] <- b` (R8). -/
def State.setV (s : State) (x : Nibble) (b : Byte) : State := { s with v := s.v.set x.toNat b x.isLt }

/-- Write VX and then VF, in this order, so that VF ends as the flag when X = 0xF (10_state.md R22). -/
def State.setVFlag (s : State) (x : Nibble) (b flag : Byte) : State := (s.setV x b).setV regF flag

/-- `V[k] <- b` for each byte of a list, register numbers ascending from `k` (42_index_memory.md R165). -/
def State.setVs (s : State) (k : Nat) : List Byte → State
  | [] => s
  | b :: bs => State.setVs (s.setV (BitVec.ofNat 4 k) b) (k + 1) bs

/-- `I <- w`. -/
def State.setI (s : State) (w : Word) : State := { s with i := w }

/-- `pc <- target` (40_control_flow.md R109: no check of alignment or range). -/
def State.setPc (s : State) (target : Word) : State := { s with pc := target }

/-- `pc <- (pc + 2) mod 2^16`: past one word (R70, 40_control_flow.md R110). -/
def State.advancePc (s : State) : State := s.setPc (s.pc + 2)

/-- `pc <- pc − 2`: back to the fetch address (44_input_timers.md R193). -/
def State.rewindPc (s : State) : State := s.setPc (s.pc - 2)

/-- The fetch address `p` of the instruction under way: `pc = p + 2` in the execute phase (00_scope.md R11). -/
def State.fetchPc (s : State) : Word := s.pc - 2

/-- Skip the next word when the condition holds (40_control_flow.md R110). -/
def State.skipIf (s : State) (c : Bool) : State := if c then s.advancePc else s

/-- `DT <- b`. -/
def State.setDt (s : State) (b : Byte) : State := { s with dt := b }

/-- `ST <- b`. -/
def State.setSt (s : State) (b : Byte) : State := { s with st := b }

/-! ## Memory, keys, framebuffer -/

/-- The byte of memory at an address: the model's read of one byte. -/
def State.byte (s : State) (a : Nat) : Byte := s.mem.get a

/-- Replace memory. -/
def State.setMem (s : State) (m : Memory) : State := { s with mem := m }

/-- `KEY[k]` (R8). -/
def State.keyDown (s : State) (k : Nibble) : Bool := s.key[k.toNat]'k.isLt

/-- `KEY[k] <- pressed`: the host's alone (60_exceptions.md R235). -/
def State.setKey (s : State) (k : Nibble) (pressed : Bool) : State := { s with key := s.key.set k.toNat pressed k.isLt }

/-- `FB(x, y)` (R8). -/
def Framebuffer.pixel (fb : Framebuffer) (x : Fin 64) (y : Fin 32) : Bool := fb[y][x]

/-- `FB(x, y) <- not FB(x, y)` (43_graphics.md R181). -/
def Framebuffer.toggle (fb : Framebuffer) (x : Fin 64) (y : Fin 32) : Framebuffer :=
  fb.set y (fb[y].set x (!fb[y][x]))

/-- Every pixel off (43_graphics.md R180). -/
def Framebuffer.clear : Framebuffer := Vector.replicate 32 (Vector.replicate 64 false)

/-- `FB(x, y)` of a state. -/
def State.pixel (s : State) (x : Fin 64) (y : Fin 32) : Bool := s.fb.pixel x y

/-- Replace the framebuffer. -/
def State.setFb (s : State) (fb : Framebuffer) : State := { s with fb := fb }

/-! ## Call stack -/

/-- Push(v): increment SP, then write the slot just below the new pointer; no state when SP = 16 (10_state.md R30). -/
def State.push (s : State) (w : Word) : Option State :=
  if h : s.sp.val < 16 then some { s with sp := ⟨s.sp.val + 1, by omega⟩, stack := s.stack.set s.sp.val w h }
  else none

/-- Pop(): decrement SP, then read the slot at the new pointer, which keeps its value (10_state.md R30, R31); nothing
when SP = 0. -/
def State.pop (s : State) : Option (Word × State) :=
  if h : 0 < s.sp.val then
    some (s.stack[s.sp.val - 1]'(by omega), { s with sp := ⟨s.sp.val - 1, by omega⟩ })
  else none

/-! ## Errors -/

/-- Raise an error: the STEP ends with it, and with no state of its own, so every write of the execute phase is gone
(00_scope.md R10, 60_exceptions.md R218). -/
def raise (f : Fault) : Result := .fault f

/-- MemoryBoundsError in the execute phase of the instruction `i` (R213, R216). The recorded word is the encoding of
`i`, which is the fetched word (log entry 6). -/
def raiseMemoryBounds (i : Instr) (addr : Nat) (s : State) : Result :=
  raise (.memoryBounds s.fetchPc (some (encode i)) addr)

/-- StackBoundsError (R214, R216). -/
def raiseStackBounds (i : Instr) (op : StackOp) (s : State) : Result := raise (.stackBounds s.fetchPc (encode i) op)

/-- KeyIndexError (R215, R216). -/
def raiseKeyIndex (i : Instr) (key : Byte) (s : State) : Result := raise (.keyIndex s.fetchPc (encode i) key)

/-- The numeric code of a kind of error (60_exceptions.md R211). -/
def ErrorKind.code : ErrorKind → Nat
  | .decode => 1
  | .memoryBounds => 2
  | .stackBounds => 3
  | .keyIndex => 4

/-- The kind of a STEP error (R211). -/
def Fault.kind : Fault → ErrorKind
  | .decodeError _ _ => .decode
  | .memoryBounds _ _ _ => .memoryBounds
  | .stackBounds _ _ _ => .stackBounds
  | .keyIndex _ _ _ => .keyIndex

/-- The numeric code of a STEP error (R211). -/
def Fault.code (f : Fault) : Nat := f.kind.code

/-- `fetch_pc` (R216). -/
def Fault.fetchPc : Fault → Word
  | .decodeError p _ | .memoryBounds p _ _ | .stackBounds p _ _ | .keyIndex p _ _ => p

/-- `op`, absent for a fetch MemoryBoundsError only (R216). -/
def Fault.op : Fault → Option Word
  | .memoryBounds _ op _ => op
  | .decodeError _ op | .stackBounds _ op _ | .keyIndex _ op _ => some op

/-- `addr`, for MemoryBoundsError only (R216). -/
def Fault.addr : Fault → Option Nat
  | .memoryBounds _ _ addr => some addr
  | .decodeError _ _ | .stackBounds _ _ _ | .keyIndex _ _ _ => none

/-- `stack_op`, for StackBoundsError only (R216). -/
def Fault.stackOp : Fault → Option StackOp
  | .stackBounds _ _ op => some op
  | .decodeError _ _ | .memoryBounds _ _ _ | .keyIndex _ _ _ => none

/-- `key`, for KeyIndexError only (R216). -/
def Fault.key : Fault → Option Byte
  | .keyIndex _ _ key => some key
  | .decodeError _ _ | .memoryBounds _ _ _ | .stackBounds _ _ _ => none

/-- The information a STEP error records (R216). -/
def Fault.info (f : Fault) : ErrorInfo where
  code := f.code
  fetchPc := some f.fetchPc
  op := f.op
  addr := f.addr
  stackOp := f.stackOp
  key := f.key

/-- The information the MemoryBoundsError of a LOAD records: its code and `addr`, no field of a STEP (R216, R232). -/
def loadErrorInfo (addr : Nat) : ErrorInfo where
  code := ErrorKind.memoryBounds.code
  fetchPc := none
  op := none
  addr := some addr
  stackOp := none
  key := none

/-- The state a STEP that answered the error `f` leaves, `s` being the state before it: nothing changed after a fetch
error, only `pc <- p + 2` after any other (60_exceptions.md R218). A host that continues goes on from it (R219). -/
def State.afterErr (s : State) (f : Fault) : State :=
  match f.op with
  | none => s
  | some _ => s.advancePc

/-! ## Fetch and the random input -/

/-- Fetch the word at `pc`: the two bytes at `p` and `p + 1`, big-endian, for any `p` even or odd (30_encoding.md R70,
20_memory.md R53, R54); MemoryBoundsError with the lowest address above 0xFFF otherwise (R71). -/
def fetch (s : State) : Except Fault Word :=
  match s.mem.memRead s.pc.toNat with
  | .error a => .error (.memoryBounds s.pc none a)
  | .ok hi =>
    match s.mem.memRead (s.pc.toNat + 1) with
    | .error a => .error (.memoryBounds s.pc none a)
    | .ok lo => .ok (wordOfBytes hi lo)

/-- `rnd` set for the STEP under way (60_exceptions.md R233). -/
def State.withRnd (s : State) (r : Byte) : State := { s with rnd := r }

/-- The random input of the next STEP: the oldest the environment supplied, else a free draw (log entry 1). -/
def State.nextRnd (s : State) : Byte :=
  match s.rndInputs with
  | r :: _ => r
  | [] => Config.freeRnd s.stepCount

/-- The inputs after one STEP took its random input (log entry 1). -/
def State.takeRnd (s : State) : State := { s with rndInputs := s.rndInputs.tail, stepCount := s.stepCount + 1 }

/-- Store the bytes at the addresses from `a` that are inside memory, ascending. The host's stores of a program; no
instruction uses it. -/
def State.storeBytes (s : State) (a : Nat) : List Byte → State
  | [] => s
  | b :: bs =>
    if a < Config.memSize then State.storeBytes (s.setMem (s.mem.put a b)) (a + 1) bs
    else State.storeBytes s (a + 1) bs

end Sys2Proof.Machine
end

