-- ==== Sys2Proof/Machine/Flags.lean ====
section
/-! DEFINITION. Every flag of the core: VF is the only one (10_state.md R28), computed on exact naturals from the
operands read before the instruction writes anything (R22, 41_alu.md R142). -/

namespace Sys2Proof.Machine

/-- `bool(c)`: 1 if the condition holds else 0 (00_scope.md R7). -/
def boolByte (c : Bool) : Byte := if c then 1 else 0

/-- Carry of 8XY4: 1 if VX + VY > 255 (41_alu.md R136). -/
def carryFlag (a b : Byte) : Byte := boolByte (decide (a.toNat + b.toNat > 255))

/-- No-borrow of 8XY5 and 8XY7: 1 if minuend ≥ subtrahend (R137, R139). -/
def noBorrowFlag (minuend subtrahend : Byte) : Byte := boolByte (decide (minuend.toNat ≥ subtrahend.toNat))

/-- The bit 8XY6 shifts out: bit 0 of the old VX (R138). -/
def lowBitFlag (a : Byte) : Byte := a &&& 1

/-- The bit 8XYE shifts out: bit 7 of the old VX (R140). -/
def highBitFlag (a : Byte) : Byte := a >>> 7

/-- Collision of DXYN: 1 if any pixel went from on to off (43_graphics.md R181, R184). -/
def collisionFlag (collided : Bool) : Byte := boolByte collided

end Sys2Proof.Machine
end

