-- ==== Sys2Proof/Machine/Operands.lean ====
section
/-! DEFINITION. Every operand form: immediates (30_encoding.md R74), the results the ALU computes from operands
(41_alu.md R142), addresses through I (42_index_memory.md R166), key indices and framebuffer coordinates. -/

namespace Sys2Proof.Machine

/-- `zext_16(NNN)`: an absolute address (R74). -/
def addressOperand (nnn : Addr12) : Word := BitVec.ofNat 16 nnn.toNat

/-- The target of BNNN: `zext_16(NNN) + V0`, not masked to 12 bits (40_control_flow.md R108). -/
def jumpV0Target (nnn : Addr12) (v0 : Byte) : Word := BitVec.ofNat 16 (nnn.toNat + v0.toNat)

/-- `(a + b) mod 256` (R131, R136). -/
def addByte (a b : Byte) : Byte := BitVec.ofNat 8 (a.toNat + b.toNat)

/-- `(a − b) mod 256`: the integer difference reduced into 0..255 (R137, R139). -/
def subByte (a b : Byte) : Byte := BitVec.ofInt 8 ((a.toNat : Int) - (b.toNat : Int))

/-- `a >> 1` (R138). -/
def shiftRightByte (a : Byte) : Byte := a >>> 1

/-- `(a << 1) mod 256` (R140). -/
def shiftLeftByte (a : Byte) : Byte := a <<< 1

/-- `(I + VX) mod 2^16` (42_index_memory.md R161). -/
def addIndex (i : Word) (vx : Byte) : Word := BitVec.ofNat 16 (i.toNat + vx.toNat)

/-- The glyph address `5 × VX`, exact and not masked (R162). -/
def glyphAddress (vx : Byte) : Word := BitVec.ofNat 16 (5 * vx.toNat)

/-- The three decimal digits of VX: hundreds, tens, ones (R163). -/
def bcdDigits (vx : Byte) : List Byte :=
  [BitVec.ofNat 8 (vx.toNat / 100), BitVec.ofNat 8 (vx.toNat / 10 % 10), BitVec.ofNat 8 (vx.toNat % 10)]

/-- The base of a memory access through I: an exact natural (20_memory.md R55, 42_index_memory.md R166). -/
def State.indexAddress (s : State) : Nat := s.i.toNat

/-- The values of V0 to VX in ascending order (R164). -/
def State.regsUpTo (s : State) (x : Nibble) : List Byte :=
  (List.range (x.toNat + 1)).map fun k => s.getV (BitVec.ofNat 4 k)

/-- The key index in VX: a register value above 0xF names no key (44_input_timers.md R190, R191). -/
def keyOperand (vx : Byte) : Option Nibble := if vx.toNat > 0xF then none else some (BitVec.ofNat 4 vx.toNat)

/-- The latched key with the lowest index (44_input_timers.md R193). -/
def State.lowestKey (s : State) : Option Nibble :=
  ((List.range 16).map fun k => BitVec.ofNat 4 k).find? fun k => s.keyDown k

/-- The framebuffer column of sprite column `c`: `(VX + c) mod 64` (43_graphics.md R181). -/
def spriteColumn (vx : Byte) (c : Nat) : Fin 64 := Fin.ofNat 64 (vx.toNat + c)

/-- The framebuffer row of sprite row `r`: `(VY + r) mod 32` (R181). -/
def spriteRow (vy : Byte) (r : Nat) : Fin 32 := Fin.ofNat 32 (vy.toNat + r)

/-- Column `c` of a sprite byte is its bit `7 − c` (43_graphics.md R182, log entry 10). -/
def spriteBit (b : Byte) (c : Nat) : Bool := b.getLsbD (7 - c)

end Sys2Proof.Machine
end

