-- ==== Sys2Proof/Machine/Alu.lean ====
section
/-! DEFINITION. Register loads, arithmetic, logic, shifts, random (41_alu.md R130 to R142). None raises an error or
changes `pc` further. Result and flag are computed from the old operands; VX is written first, VF last (R22). -/

namespace Sys2Proof.Machine

/-- LD Vx, nn, 6XNN (R130). -/
def execLdImm (x : Nibble) (nn : Byte) (s : State) : Result := .next (s.setV x nn)

/-- ADD Vx, nn, 7XNN (R131): wraps, no flag. -/
def execAddImm (x : Nibble) (nn : Byte) (s : State) : Result := .next (s.setV x (addByte (s.getV x) nn))

/-- LD Vx, Vy, 8XY0 (R132). -/
def execLdReg (x y : Nibble) (s : State) : Result := .next (s.setV x (s.getV y))

/-- OR Vx, Vy, 8XY1 (R133): no flag. -/
def execOrReg (x y : Nibble) (s : State) : Result := .next (s.setV x (s.getV x ||| s.getV y))

/-- AND Vx, Vy, 8XY2 (R134): no flag. -/
def execAndReg (x y : Nibble) (s : State) : Result := .next (s.setV x (s.getV x &&& s.getV y))

/-- XOR Vx, Vy, 8XY3 (R135): no flag. -/
def execXorReg (x y : Nibble) (s : State) : Result := .next (s.setV x (s.getV x ^^^ s.getV y))

/-- ADD Vx, Vy, 8XY4 (R136). -/
def execAddReg (x y : Nibble) (s : State) : Result :=
  .next (s.setVFlag x (addByte (s.getV x) (s.getV y)) (carryFlag (s.getV x) (s.getV y)))

/-- SUB Vx, Vy, 8XY5 (R137). -/
def execSubReg (x y : Nibble) (s : State) : Result :=
  .next (s.setVFlag x (subByte (s.getV x) (s.getV y)) (noBorrowFlag (s.getV x) (s.getV y)))

/-- SHR Vx, 8XY6 (R138): in place, Y ignored (30_encoding.md R78). -/
def execShr (x _y : Nibble) (s : State) : Result :=
  .next (s.setVFlag x (shiftRightByte (s.getV x)) (lowBitFlag (s.getV x)))

/-- SUBN Vx, Vy, 8XY7 (R139). -/
def execSubnReg (x y : Nibble) (s : State) : Result :=
  .next (s.setVFlag x (subByte (s.getV y) (s.getV x)) (noBorrowFlag (s.getV y) (s.getV x)))

/-- SHL Vx, 8XYE (R140): in place, Y ignored (30_encoding.md R78). -/
def execShl (x _y : Nibble) (s : State) : Result :=
  .next (s.setVFlag x (shiftLeftByte (s.getV x)) (highBitFlag (s.getV x)))

/-- RND Vx, nn, CXNN (R141): the STEP's random input masked. -/
def execRnd (x : Nibble) (nn : Byte) (s : State) : Result := .next (s.setV x (s.rnd &&& nn))

end Sys2Proof.Machine
end

