-- ==== Sys2Proof/Machine/ControlFlow.lean ====
section
/-! DEFINITION. Control flow (40_control_flow.md R100 to R110). On entry `pc = p + 2` (00_scope.md R11). -/

namespace Sys2Proof.Machine

/-- NOP, 0000 (R100). -/
def execNop (s : State) : Result := .next s

/-- RET, 00EE (R101): StackBoundsError (pop) when SP = 0. -/
def execRet (s : State) : Result :=
  match s.pop with
  | some (target, s') => .next (s'.setPc target)
  | none => raiseStackBounds .ret .pop s

/-- JP nnn, 1NNN (R102). -/
def execJp (nnn : Addr12) (s : State) : Result := .next (s.setPc (addressOperand nnn))

/-- CALL nnn, 2NNN (R103): StackBoundsError (push) when SP = 16. -/
def execCall (nnn : Addr12) (s : State) : Result :=
  match s.push s.pc with
  | some s' => .next (s'.setPc (addressOperand nnn))
  | none => raiseStackBounds (.call nnn) .push s

/-- SE Vx, nn, 3XNN (R104). -/
def execSeImm (x : Nibble) (nn : Byte) (s : State) : Result := .next (s.skipIf (s.getV x == nn))

/-- SNE Vx, nn, 4XNN (R105). -/
def execSneImm (x : Nibble) (nn : Byte) (s : State) : Result := .next (s.skipIf (s.getV x != nn))

/-- SE Vx, Vy, 5XY0 (R106). -/
def execSeReg (x y : Nibble) (s : State) : Result := .next (s.skipIf (s.getV x == s.getV y))

/-- SNE Vx, Vy, 9XY0 (R107). -/
def execSneReg (x y : Nibble) (s : State) : Result := .next (s.skipIf (s.getV x != s.getV y))

/-- JP V0, nnn, BNNN (R108): V0 whatever bits 11:8 hold. -/
def execJpV0 (nnn : Addr12) (s : State) : Result := .next (s.setPc (jumpV0Target nnn (s.getV 0)))

end Sys2Proof.Machine
end

