-- ==== Sys2Proof/Machine/Graphics.lean ====
section
/-! DEFINITION. The graphics compositor (43_graphics.md R180 to R185). -/

namespace Sys2Proof.Machine

/-- A drawing under way: the framebuffer, and whether any pixel has gone from on to off (`collided` of R181). -/
abbrev Drawing := Framebuffer × Bool

/-- Toggle one pixel, noting whether it goes from on to off (R181). -/
def drawPixel (x : Fin 64) (y : Fin 32) (d : Drawing) : Drawing := (d.1.toggle x y, d.2 || d.1.pixel x y)

/-- Sprite column `c` of the byte `b` on framebuffer row `y`: toggled where the bit is set (R181, R182). -/
def drawColumn (vx : Byte) (y : Fin 32) (b : Byte) (c : Nat) (d : Drawing) : Drawing :=
  if spriteBit b c then drawPixel (spriteColumn vx c) y d else d

/-- The eight columns of one sprite row (R181). -/
def drawRow (vx : Byte) (y : Fin 32) (b : Byte) (d : Drawing) : Drawing :=
  (List.range 8).foldl (fun d c => drawColumn vx y b c d) d

/-- The sprite's rows from row `r` on (R181). -/
def drawRows (vx vy : Byte) (r : Nat) : List Byte → Drawing → Drawing
  | [], d => d
  | b :: bs, d => drawRows vx vy (r + 1) bs (drawRow vx (spriteRow vy r) b d)

/-- CLS, 00E0 (R180). -/
def execCls (s : State) : Result := .next (s.setFb Framebuffer.clear)

/-- DRW Vx, Vy, n, DXYN (R181 to R184): VF written once, after every row. The rows are read before any is drawn, which
R10 makes the same as reading each when it is drawn: an error discards the whole instruction. -/
def execDrw (x y n : Nibble) (s : State) : Result :=
  match s.mem.readBytes s.indexAddress n.toNat with
  | .ok rows =>
    let d := drawRows (s.getV x) (s.getV y) 0 rows (s.fb, false)
    .next ((s.setFb d.1).setV regF (collisionFlag d.2))
  | .error addr => raiseMemoryBounds (.drw x y n) addr s

end Sys2Proof.Machine
end

