-- ==== Sys2Proof/Machine/IndexMemory.lean ====
section
/-! DEFINITION. Index register, BCD and block transfer (42_index_memory.md R160 to R166). I is never changed by an
access through it; an access that leaves memory writes nothing (20_memory.md R55). -/

namespace Sys2Proof.Machine

/-- Store bytes through I, or raise MemoryBoundsError for the instruction `i` (R55, R166). -/
def storeThroughIndex (i : Instr) (bytes : List Byte) (s : State) : Result :=
  match s.mem.writeBytes s.indexAddress bytes with
  | .ok m => .next (s.setMem m)
  | .error addr => raiseMemoryBounds i addr s

/-- LD I, nnn, ANNN (R160). -/
def execLdI (nnn : Addr12) (s : State) : Result := .next (s.setI (addressOperand nnn))

/-- ADD I, Vx, FX1E (R161): wraps modulo 2^16, no flag, no bound. -/
def execAddI (x : Nibble) (s : State) : Result := .next (s.setI (addIndex s.i (s.getV x)))

/-- LD F, Vx, FX29 (R162). -/
def execLdF (x : Nibble) (s : State) : Result := .next (s.setI (glyphAddress (s.getV x)))

/-- LD B, Vx, FX33 (R163). -/
def execLdB (x : Nibble) (s : State) : Result := storeThroughIndex (.ldB x) (bcdDigits (s.getV x)) s

/-- LD [I], Vx, FX55 (R164). -/
def execStRegs (x : Nibble) (s : State) : Result := storeThroughIndex (.stRegs x) (s.regsUpTo x) s

/-- LD Vx, [I], FX65 (R165). -/
def execLdRegs (x : Nibble) (s : State) : Result :=
  match s.mem.readBytes s.indexAddress (x.toNat + 1) with
  | .ok bytes => .next (s.setVs 0 bytes)
  | .error addr => raiseMemoryBounds (.ldRegs x) addr s

end Sys2Proof.Machine
end

