-- ==== Sys2Proof/Machine/KeypadTimers.lean ====
section
/-! DEFINITION. Keypad and timer instructions (44_input_timers.md R190 to R195). No instruction writes a key latch. -/

namespace Sys2Proof.Machine

/-- SKP Vx, EX9E (R190): KeyIndexError when VX > 0xF (log entry 7). -/
def execSkp (x : Nibble) (s : State) : Result :=
  match keyOperand (s.getV x) with
  | some k => .next (s.skipIf (s.keyDown k))
  | none => raiseKeyIndex (.skp x) (s.getV x) s

/-- SKNP Vx, EXA1 (R191): KeyIndexError when VX > 0xF (log entry 7). -/
def execSknp (x : Nibble) (s : State) : Result :=
  match keyOperand (s.getV x) with
  | some k => .next (s.skipIf (!s.keyDown k))
  | none => raiseKeyIndex (.sknp x) (s.getV x) s

/-- LD Vx, DT, FX07 (R192). -/
def execLdVxDt (x : Nibble) (s : State) : Result := .next (s.setV x s.dt)

/-- LD Vx, K, FX0A (R193): the lowest latched key, or back to the instruction when none is latched. -/
def execLdVxK (x : Nibble) (s : State) : Result :=
  match s.lowestKey with
  | some k => .next (s.setV x (BitVec.ofNat 8 k.toNat))
  | none => .next s.rewindPc

/-- LD DT, Vx, FX15 (R194). -/
def execLdDtVx (x : Nibble) (s : State) : Result := .next (s.setDt (s.getV x))

/-- LD ST, Vx, FX18 (R195). -/
def execLdStVx (x : Nibble) (s : State) : Result := .next (s.setSt (s.getV x))

end Sys2Proof.Machine
end

