-- ==== Sys2Proof/Machine/Cycle.lean ====
section
/-! DEFINITION. The STEP cycle (30_encoding.md R81): fetch, decode, execute, in this order (60_exceptions.md R217). -/

namespace Sys2Proof.Machine

/-- The state an instruction executes in: `pc = p + 2` and `rnd` the STEP's random input (R70, R81). -/
def State.fetched (s : State) (r : Byte) : State := s.advancePc.withRnd r

/-- STEP(rnd) (R81, 60_exceptions.md R233). -/
def stepWith (r : Byte) (s : State) : Result :=
  match fetch s with
  | .error f => raise f
  | .ok op =>
    match decodeWord op with
    | .error _ => raise (.decodeError s.pc op)
    | .ok i => exec i (s.fetched r)

end Sys2Proof.Machine
end

