-- ==== Sys2Proof/Machine/Step.lean ====
section
/-! DEFINITION. One STEP of the core as the host's `step`: the state supplies the STEP's random input (log entry 1). -/

namespace Sys2Proof.Machine

/-- One STEP (30_encoding.md R81). -/
def step (s : State) : Host.Outcome State Fault Refusal := stepWith s.nextRnd s.takeRnd

/-- The state with an instruction word stored where `step` fetches, its bits numbered as spec/opcode_table.json
numbers them: the two bytes at `pc` and `pc + 1`, which is what LOAD does for a program at 0x200 (log entry 5). -/
def State.withFetchWord (s : State) (nbits w : Nat) : State := s.storeBytes s.pc.toNat (bytesOfWord (tableWord nbits w))

end Sys2Proof.Machine
end

