-- ==== Sys2Proof/Machine/HostInterface.lean ====
section
/-! DEFINITION. The host's transactions (60_exceptions.md R222 to R239, 70_reset_and_hazards.md R250 to R254): TICK,
SET_KEY, LOAD, RESET and INITIALIZE, STEP, and the reads, each atomic, and schedules of them. -/

namespace Sys2Proof.Machine

/-! ## Timers (R223) -/

/-- One down count: a timer at 0 stays at 0. -/
def countDown (b : Byte) : Byte := if b.toNat > 0 then BitVec.ofNat 8 (b.toNat - 1) else b

/-- TICK: both timers count down, independently (R223). -/
def State.tick (s : State) : State := { s with dt := countDown s.dt, st := countDown s.st }

/-- `sound_active` (R225). -/
def State.soundActive (s : State) : Bool := decide (s.st.toNat > 0)

/-! ## Reset and load -/

/-- Memory after reset for a FONT_ROM: the font at 0x000 to 0x04F, zero elsewhere, in canonical form (10_state.md R37). -/
def Memory.ofFont (font : Config.FontRom) : Memory :=
  match Memory.writeBytes [] 0 font.toList with
  | .ok m => m
  | .error _ => []

/-- The state after INITIALIZE or RESET of a core whose font is `font` (70_reset_and_hazards.md R250, R251). With the
default font it is `State.reset`. -/
def State.resetWith (font : Config.FontRom) : State := { State.reset with mem := Memory.ofFont font }

/-- LOAD(b): the bytes copied to 0x200 on, or the address 0x1000 when there are more than 3584 (R232). -/
def State.load (s : State) (bytes : List Byte) : Except Nat State :=
  if bytes.length > Config.progMax then .error 0x1000
  else
    match s.mem.writeBytes Config.progBase bytes with
    | .ok m => .ok (s.setMem m)
    | .error a => .error a

/-! ## Transactions -/

/-- The transactions of R230. `create` is INITIALIZE. SET_KEY's index is 4 bits (R235). -/
inductive Transaction where
  | create
  | reset
  | load (bytes : List Byte)
  | setKey (k : Nibble) (pressed : Bool)
  | step (rnd : Byte)
  | tick
  | readFb
  | readSt
  | readDt
  deriving DecidableEq, Repr

/-- The result column of R230. -/
inductive Response where
  /-- No result. -/
  | done
  /-- Ok of a STEP or a LOAD. -/
  | ok
  /-- Err of a STEP. -/
  | err (f : Fault)
  /-- Err(MemoryBoundsError) of a LOAD, with its `addr` (R232); its whole record is `loadErrorInfo`. -/
  | loadErr (addr : Nat)
  /-- The 64 × 32 grid (R236). -/
  | framebuffer (fb : Framebuffer)
  /-- ST and `sound_active` (R225, R236). -/
  | soundTimer (st : Byte) (active : Bool)
  /-- DT (R236). -/
  | delayTimer (dt : Byte)
  /-- The model refused to say. No transaction answers this: no instruction is refused. -/
  | refused (r : Refusal)
  deriving DecidableEq, Repr

/-- The information a result records when it is an error, of a STEP or of a LOAD (R216); nothing for any other result. -/
def Response.errorInfo : Response → Option ErrorInfo
  | .err f => some f.info
  | .loadErr addr => some (loadErrorInfo addr)
  | .done | .ok | .framebuffer _ | .soundTimer _ _ | .delayTimer _ | .refused _ => none

/-- RESET or INITIALIZE on a core: every item of R37, the random source's inputs untouched (R251: "The random source is
not state of the core and RESET does not touch it"). -/
def State.doReset (font : Config.FontRom) (s : State) : State :=
  { State.resetWith font with rnd := s.rnd, rndInputs := s.rndInputs, stepCount := s.stepCount }

/-- STEP(rnd) as a transaction: the next state and Ok, or Err with the state R218 gives. -/
def transactStep (r : Byte) (s : State) : State × Response :=
  match stepWith r s with
  | .next t => (t, .ok)
  | .fault f => (s.afterErr f, .err f)
  | .refused q => (s, .refused q)

/-- One transaction of a core whose font is `font`: the state after it and its result (R230). -/
def transact (font : Config.FontRom) (t : Transaction) (s : State) : State × Response :=
  match t with
  | .create => (s.doReset font, .done)
  | .reset => (s.doReset font, .done)
  | .load bytes =>
    match s.load bytes with
    | .ok s' => (s', .ok)
    | .error addr => (s, .loadErr addr)
  | .setKey k pressed => (s.setKey k pressed, .done)
  | .step r => transactStep r s
  | .tick => (s.tick, .done)
  | .readFb => (s, .framebuffer s.fb)
  | .readSt => (s, .soundTimer s.st s.soundActive)
  | .readDt => (s, .delayTimer s.dt)

/-- A finite schedule of transactions: the state after it and the results, in order (R237). -/
def runSchedule (font : Config.FontRom) : List Transaction → State → State × List Response
  | [], s => (s, [])
  | t :: ts, s =>
    let (s', r) := transact font t s
    let (s'', rs) := runSchedule font ts s'
    (s'', r :: rs)

/-- The state after the first `n` transactions of an infinite schedule (R237). -/
def runStream (font : Config.FontRom) (sched : Nat → Transaction) : Nat → State → State
  | 0, s => s
  | n + 1, s => (transact font (sched n) (runStream font sched n s)).1

end Sys2Proof.Machine
end

