-- ==== Sys2Proof/Safety.lean ====
section
/-! DEFINITION. The terms claims are stated in: what stays the same across an instruction (00_scope.md R12), the
invariants of the core, what a sprite sets, and what an error-free schedule is (60_exceptions.md R218). -/

namespace Sys2Proof.Machine

/-! ## Frames: one predicate per kind of state, read through the model's accessors -/

/-- Every general register but those listed keeps its value. -/
def SameVBut (rs : List Nibble) (s t : State) : Prop := ∀ r : Nibble, r ∉ rs → t.getV r = s.getV r

/-- Every general register keeps its value. -/
def SameV (s t : State) : Prop := ∀ r : Nibble, t.getV r = s.getV r

/-- SP and every slot keep their values. -/
def SameStack (s t : State) : Prop := t.sp = s.sp ∧ ∀ j : Fin 16, t.stack[j] = s.stack[j]

/-- Every key latch keeps its value. -/
def SameKeys (s t : State) : Prop := ∀ k : Nibble, t.keyDown k = s.keyDown k

/-- Every pixel keeps its value. -/
def SameScreen (s t : State) : Prop := ∀ (x : Fin 64) (y : Fin 32), t.pixel x y = s.pixel x y

/-- Both timers keep their values. -/
def SameTimers (s t : State) : Prop := t.dt = s.dt ∧ t.st = s.st

/-- Every byte of memory keeps its value. -/
def SameMemory (s t : State) : Prop := ∀ a : Nat, t.byte a = s.byte a

/-- The model's own inputs for the random source keep their values (log entry 1). -/
def SameInputs (s t : State) : Prop := t.rnd = s.rnd ∧ t.rndInputs = s.rndInputs ∧ t.stepCount = s.stepCount

/-- Only `pc` and general registers may differ. -/
def SameOutsideVPc (s t : State) : Prop :=
  t.i = s.i ∧ SameStack s t ∧ SameKeys s t ∧ SameScreen s t ∧ SameTimers s t ∧ SameMemory s t ∧ SameInputs s t

/-- Only `pc` may differ. -/
def SameOutsidePc (s t : State) : Prop := SameV s t ∧ SameOutsideVPc s t

/-! ## Invariants -/

/-- `pc` and the call stack hold only values an instruction can leave there (10_state.md R27). -/
def PcInRange (s : State) : Prop := s.pc.toNat ≤ 0x10FE ∧ ∀ j : Fin 16, (s.stack[j]).toNat ≤ 0x1000

/-- The invariant of the core: memory in canonical form, `pc` and stack in range. -/
def CoreInvariant (s : State) : Prop := s.mem.wf = true ∧ PcInRange s

/-- `pc` and every stack slot are even (10_state.md R26). -/
def AllEven (s : State) : Prop := s.pc.toNat % 2 = 0 ∧ ∀ j : Fin 16, (s.stack[j]).toNat % 2 = 0

/-- The target an instruction names is even (10_state.md R26: "every jump, call and BNNN target is even"). -/
def EvenTarget (i : Instr) (s : State) : Prop :=
  match i with
  | .jp nnn => nnn.toNat % 2 = 0
  | .call nnn => nnn.toNat % 2 = 0
  | .jpV0 nnn => (nnn.toNat + (s.getV 0).toNat) % 2 = 0
  | _ => True

/-! ## Words and sprites -/

/-- The word a fetch at `pc` reads: the byte at `pc` is the high one (20_memory.md R53). -/
def State.wordAtPc (s : State) : Word := wordOfBytes (s.byte s.pc.toNat) (s.byte (s.pc.toNat + 1))

/-- A set bit of the `n`-row sprite at I, drawn at (vx, vy), falls on the pixel (px, py) (43_graphics.md R181, R182). -/
def SpriteSets (s : State) (vx vy : Byte) (n : Nibble) (px : Fin 64) (py : Fin 32) : Prop :=
  ∃ r c : Nat, r < n.toNat ∧ c < 8 ∧ (s.byte (s.i.toNat + r)).getLsbD (7 - c) = true ∧
    px.val = (vx.toNat + c) % 64 ∧ py.val = (vy.toNat + r) % 32

/-! ## Runs -/

/-- No STEP of the schedule returned Err: the premise R218 asks of a claim about a program. -/
def ErrFree (font : Config.FontRom) (sched : List Transaction) (s : State) : Prop :=
  ∀ f : Fault, Response.err f ∉ (runSchedule font sched s).2

/-- `k` STEPs of the core from a state run without an error (60_exceptions.md R218). -/
def SafeRun (k : Nat) (s : State) : Prop := ∃ t, Host.Core.run Sys2Proof.core k s = .next t

end Sys2Proof.Machine
end

