-- ==== Sys2Proof/Certificates/Slice0/Obligations.lean ====
section
/-! DEFINITION. The statements for the provers. Each says in its docstring which sentence of the spec it formalises, or
which decision or log entry it rests on. `exec` runs in the execute phase, where `pc = p + 2` (00_scope.md R11). -/

open Sys2Proof Sys2Proof.Machine

/-! ## Encoding -/

/-- 30_encoding.md R72 to R76: the decoder gives back every well-formed instruction, with every operand (an ignored Y
too), and leaves the bytes after it alone. -/
def Obligations.DecodeOfEncodeIsTheInstruction : Prop :=
  ∀ i : Instr, WellFormed i = true →
    decodeWord (encode i) = .ok i ∧ ∀ rest : List Byte, decode (bytesOfWord (encode i) ++ rest) = .ok (i, rest)

/-- 30_encoding.md R72 to R78: a word that decodes is the encoding of what it decodes to, so no bit is dropped. -/
def Obligations.EncodeOfDecodeIsTheWord : Prop :=
  ∀ (w : Word) (i : Instr), decodeWord w = .ok i → encode i = w

/-- 30_encoding.md section 4 (R77, which the spec derives): decode answers an instruction or a rejection, and the
rejected words are exactly those of the five bullets. -/
def Obligations.RejectedWordsAreExactlyTheIllegalOnes : Prop :=
  ∀ w : Word, (IllegalWord w → ∃ e, decodeWord w = .error e) ∧ (¬ IllegalWord w → ∃ i, decodeWord w = .ok i)

/-- 30_encoding.md section 3 with spec/opcode_table.json: a word decodes to the instruction of the one row it matches,
and a word that matches no row is rejected. -/
def Obligations.DecodeAgreesWithTheOpcodeTable : Prop :=
  ∀ w : Word,
    (∀ i, decodeWord w = .ok i →
      ∃ row ∈ opcodeTable, row.matches w = true ∧ row.mnemonic = i.mnemonic ∧
        ∀ other ∈ opcodeTable, other.matches w = true → other = row) ∧
    (∀ e, decodeWord w = .error e → ∀ row ∈ opcodeTable, row.matches w = false)

/-- Words written out from the patterns of 30_encoding.md R82, one or more of each family, decode to what they stand for. -/
def Obligations.WrittenOutWordsDecode : Prop :=
  decodeWord 0x00EE#16 = .ok .ret ∧ decodeWord 0x2ABC#16 = .ok (.call 0xABC) ∧
  decodeWord 0x3F01#16 = .ok (.seImm 0xF 0x01) ∧ decodeWord 0x9120#16 = .ok (.sneReg 0x1 0x2) ∧
  decodeWord 0x82A6#16 = .ok (.shr 0x2 0xA) ∧ decodeWord 0xC30F#16 = .ok (.rnd 0x3 0x0F) ∧
  decodeWord 0xD01F#16 = .ok (.drw 0x0 0x1 0xF) ∧ decodeWord 0xE5A1#16 = .ok (.sknp 0x5) ∧
  decodeWord 0xF265#16 = .ok (.ldRegs 0x2)

/-! ## The STEP cycle -/

/-- 30_encoding.md section 5 (the STEP cycle): when the bytes at `pc` decode, STEP is the instruction run with
`pc = p + 2` and the STEP's random input, supplied by the host or, in `step`, by the state (log entry 1). -/
def Obligations.StepRunsTheDecodedInstruction : Prop :=
  ∀ (s : State) (i : Instr), s.pc.toNat ≤ 0xFFE → decodeWord s.wordAtPc = .ok i →
    (∀ r : Byte, stepWith r s = exec i { s with pc := s.pc + 2, rnd := r }) ∧
    step s = exec i { s with pc := s.pc + 2, rnd := s.nextRnd, rndInputs := s.rndInputs.tail,
                             stepCount := s.stepCount + 1 }

/-- R70, stated whole: the two bytes at `p` and `p + 1` for any `p` even or odd, big-endian, `pc` advanced by 2; and the
error with the address of the byte that is out of bounds. -/
def Obligations.FetchReadsTwoBytesBigEndian : Prop :=
  ∀ s : State,
    (s.pc.toNat ≤ 0xFFE → ∃ op, fetch s = .ok op ∧
      op.toNat = 256 * (s.byte s.pc.toNat).toNat + (s.byte (s.pc.toNat + 1)).toNat ∧
      op.toNat / 256 = (s.byte s.pc.toNat).toNat ∧ op.toNat % 256 = (s.byte (s.pc.toNat + 1)).toNat) ∧
    (s.pc.toNat > 0xFFF → fetch s = .error (.memoryBounds s.pc none s.pc.toNat)) ∧
    (s.pc.toNat = 0xFFF → fetch s = .error (.memoryBounds s.pc none (s.pc.toNat + 1))) ∧
    (∀ r, (s.fetched r).pc.toNat = (s.pc.toNat + 2) % 2 ^ 16)

/-- 30_encoding.md section 1 (R71) with decision D3: a fetch at `pc ≥ 0xFFF` is reported with the lowest address out of
range, and the core's state is what it was, so the next STEP reports it again. -/
def Obligations.FailedFetchIsReportedAndChangesNothing : Prop :=
  ∀ (s : State) (r : Byte), s.pc.toNat ≥ 0xFFF →
    transactStep r s = (s, .err (.memoryBounds s.pc none (max s.pc.toNat 0x1000)))

/-- R212: a STEP answers DecodeError exactly when its fetched word matches no row, and nothing executes. That `pc + 2` then
stays, and nothing else changes, is R218 with decision D3 (log entry 6). -/
def Obligations.UnrecognisedWordIsADecodeError : Prop :=
  ∀ (s : State) (r : Byte), s.pc.toNat ≤ 0xFFE →
    ((∀ row ∈ opcodeTable, row.matches s.wordAtPc = false) ↔ stepWith r s = .fault (.decodeError s.pc s.wordAtPc)) ∧
    ((∀ row ∈ opcodeTable, row.matches s.wordAtPc = false) →
      transactStep r s = ({ s with pc := s.pc + 2 }, .err (.decodeError s.pc s.wordAtPc)))

/-- 60_exceptions.md section 1 (R217 with decision D5, R213 to R215): which error each instruction can raise in its
execute phase, when, and what it records; every other instruction raises none. -/
def Obligations.EachInstructionRaisesOnlyItsOwnError : Prop :=
  ∀ (i : Instr) (s : State) (f : Fault), exec i s = .fault f →
    match i with
    | .ret => s.sp = 0 ∧ f = .stackBounds (s.pc - 2) (encode i) .pop
    | .call _ => s.sp = 16 ∧ f = .stackBounds (s.pc - 2) (encode i) .push
    | .drw _ _ n => n ≠ 0 ∧ s.i.toNat + n.toNat > 0x1000 ∧
        f = .memoryBounds (s.pc - 2) (some (encode i)) (max s.i.toNat 0x1000)
    | .ldB _ => s.i.toNat + 2 > 0xFFF ∧ f = .memoryBounds (s.pc - 2) (some (encode i)) (max s.i.toNat 0x1000)
    | .stRegs x => s.i.toNat + x.toNat > 0xFFF ∧
        f = .memoryBounds (s.pc - 2) (some (encode i)) (max s.i.toNat 0x1000)
    | .ldRegs x => s.i.toNat + x.toNat > 0xFFF ∧
        f = .memoryBounds (s.pc - 2) (some (encode i)) (max s.i.toNat 0x1000)
    | .skp x => (s.getV x).toNat > 0xF ∧ f = .keyIndex (s.pc - 2) (encode i) (s.getV x)
    | .sknp x => (s.getV x).toNat > 0xF ∧ f = .keyIndex (s.pc - 2) (encode i) (s.getV x)
    | _ => False

/-- 60_exceptions.md section 1 (R216 with decision D4): every STEP error records the fetch address; all but a fetch
error record the fetched word; the code names the kind. -/
def Obligations.StepErrorRecordsFetchAddressAndWord : Prop :=
  ∀ (s : State) (r : Byte) (f : Fault), stepWith r s = .fault f →
    f.fetchPc = s.pc ∧ (s.pc.toNat ≥ 0xFFF → f.op = none ∧ f.code = 2) ∧
    (s.pc.toNat ≤ 0xFFE → f.op = some s.wordAtPc ∧ (f.code = 1 ↔ ∃ e, decodeWord s.wordAtPc = .error e))

/-- 60_exceptions.md section 1 (R218 with decision D3): after Err the state is the one before the STEP, with only
`pc <- p + 2` applied where the fetch succeeded. -/
def Obligations.StateAfterAnErrorIsPrecise : Prop :=
  ∀ (s t : State) (r : Byte) (f : Fault), transactStep r s = (t, .err f) →
    (s.pc.toNat ≥ 0xFFF → t = s) ∧ (s.pc.toNat ≤ 0xFFE → t.pc = s.pc + 2 ∧ SameOutsidePc s t)

/-- No instruction and no STEP is refused: each answers a next state or one of the core's own errors. -/
def Obligations.NothingIsRefused : Prop :=
  (∀ (i : Instr) (s : State) (q : Refusal), exec i s ≠ .refused q) ∧
  (∀ (s : State) (q : Refusal), step s ≠ .refused q) ∧
  (∀ (font : Config.FontRom) (t : Transaction) (s : State) (q : Refusal), (transact font t s).2 ≠ .refused q)

/-! ## Invariants -/

/-- The invariant holds after reset. -/
def Obligations.ResetMeetsTheInvariant : Prop := CoreInvariant State.reset

/-- The model's memory form (log entry 3): every STEP that answers Ok keeps memory canonical, from any state whose
memory is. -/
def Obligations.StepKeepsMemoryCanonical : Prop :=
  ∀ s t : State, s.mem.wf = true → step s = .next t → t.mem.wf = true

/-- 10_state.md section 3 (R27, which the spec derives): `pc` never passes 0x10FE and no stack slot passes 0x1000. -/
def Obligations.StepKeepsProgramCounterInRange : Prop :=
  ∀ s t : State, PcInRange s → step s = .next t → PcInRange t

/-- 60_exceptions.md section 5 with decision D2: every schedule of transactions, errors and continuing after them
included, keeps the invariant, for every FONT_ROM. -/
def Obligations.EveryScheduleKeepsTheInvariant : Prop :=
  ∀ (font : Config.FontRom) (sched : List Transaction) (s : State), CoreInvariant s → CoreInvariant (runSchedule font sched s).1

/-- 10_state.md section 3 (R26 with decision D8): a STEP whose jump, call or BNNN target is even keeps `pc` and every
stack slot even. -/
def Obligations.EvenTargetsKeepTheProgramCounterEven : Prop :=
  ∀ (s t : State) (i : Instr), AllEven s → s.pc.toNat ≤ 0xFFE → decodeWord s.wordAtPc = .ok i → EvenTarget i s →
    step s = .next t → AllEven t

/-- 10_state.md section 3 (R25, which the spec derives): how each instruction leaves `pc`, from `pc = p + 2`. -/
def Obligations.ProgramCounterAfterEachInstruction : Prop :=
  ∀ (i : Instr) (s t : State), exec i s = .next t →
    match i with
    | .seImm x nn => t.pc = if s.getV x = nn then s.pc + 2 else s.pc
    | .sneImm x nn => t.pc = if s.getV x = nn then s.pc else s.pc + 2
    | .seReg x y => t.pc = if s.getV x = s.getV y then s.pc + 2 else s.pc
    | .sneReg x y => t.pc = if s.getV x = s.getV y then s.pc else s.pc + 2
    | .skp x => t.pc = if s.keyDown (BitVec.ofNat 4 (s.getV x).toNat) = true then s.pc + 2 else s.pc
    | .sknp x => t.pc = if s.keyDown (BitVec.ofNat 4 (s.getV x).toNat) = true then s.pc else s.pc + 2
    | .jp nnn => t.pc.toNat = nnn.toNat
    | .call nnn => t.pc.toNat = nnn.toNat
    | .ret => ∃ h : s.sp.val - 1 < 16, t.pc = s.stack[s.sp.val - 1]
    | .jpV0 nnn => t.pc.toNat = nnn.toNat + (s.getV 0).toNat
    | .ldVxK _ => t.pc = if ∃ k, s.keyDown k = true then s.pc else s.pc - 2
    | _ => t.pc = s.pc

/-! ## Control flow -/

/-- R102, stated whole: JP sets `pc` to NNN, odd or not, and nothing else; at 0xFFF the next fetch raises. With it, NOP
(R100) changes nothing. -/
def Obligations.NopAndJumpResults : Prop :=
  ∀ s : State,
    (∃ t, exec .nop s = .next t ∧ t.pc = s.pc ∧ SameOutsidePc s t) ∧
    (∀ nnn : Addr12, ∃ t, exec (.jp nnn) s = .next t ∧ t.pc.toNat = nnn.toNat ∧ SameOutsidePc s t ∧
      (nnn = 0xFFF → fetch t = .error (.memoryBounds 0xFFF none 0x1000)))

/-- 40_control_flow.md section 3 (R108) with decision D26: the target is the exact sum V0 + NNN, not masked. -/
def Obligations.ComputedJumpTargetIsTheExactSum : Prop :=
  ∀ (s : State) (nnn : Addr12),
    ∃ t, exec (.jpV0 nnn) s = .next t ∧ t.pc.toNat = nnn.toNat + (s.getV 0).toNat ∧ SameOutsidePc s t

/-- R103, stated whole: CALL pushes `p + 2` into the slot just below the new pointer and jumps; with SP = 16 it raises
StackBoundsError (push), and the state is as after the fetch only. A RET then resumes after the CALL. -/
def Obligations.CallPushesTheReturnAddress : Prop :=
  ∀ (s : State) (nnn : Addr12),
    (∀ h : s.sp.val < 16, ∃ t, exec (.call nnn) s = .next t ∧ t.pc.toNat = nnn.toNat ∧
      t.sp.val = s.sp.val + 1 ∧ t.stack[s.sp.val] = s.pc ∧
      (∀ j : Fin 16, j.val ≠ s.sp.val → t.stack[j] = s.stack[j]) ∧
      SameV s t ∧ t.i = s.i ∧ SameKeys s t ∧ SameScreen s t ∧ SameTimers s t ∧ SameMemory s t ∧ SameInputs s t ∧
      ∃ w, exec .ret t = .next w ∧ w.pc = s.pc ∧ w.sp = s.sp) ∧
    (s.sp.val = 16 → exec (.call nnn) s = .fault (.stackBounds (s.pc - 2) (encode (.call nnn)) .push)) ∧
    (∀ (u : State) (r : Byte), u.sp.val = 16 → u.pc.toNat ≤ 0xFFE → u.wordAtPc = encode (.call nnn) →
      transactStep r u = ({ u with pc := u.pc + 2 }, .err (.stackBounds u.pc (encode (.call nnn)) .push)))

/-- R101, stated whole: RET takes the top entry as `pc`, whatever its value, and leaves every slot; a target from 0xFFF on
faults at the next fetch; with SP = 0 RET raises StackBoundsError (pop), and the state is as after the fetch only. -/
def Obligations.ReturnPopsTheTopEntry : Prop :=
  ∀ s : State,
    (∀ h : 0 < s.sp.val, ∃ t, exec .ret s = .next t ∧ t.pc = s.stack[s.sp.val - 1]'(by omega) ∧
      t.sp.val + 1 = s.sp.val ∧ (∀ j : Fin 16, t.stack[j] = s.stack[j]) ∧
      SameV s t ∧ t.i = s.i ∧ SameKeys s t ∧ SameScreen s t ∧ SameTimers s t ∧ SameMemory s t ∧ SameInputs s t ∧
      (t.pc.toNat ≥ 0xFFF → fetch t = .error (.memoryBounds t.pc none (max t.pc.toNat 0x1000)))) ∧
    (s.sp.val = 0 → exec .ret s = .fault (.stackBounds (s.pc - 2) (encode .ret) .pop)) ∧
    (∀ (u : State) (r : Byte), u.sp.val = 0 → u.pc.toNat ≤ 0xFFE → u.wordAtPc = encode .ret →
      transactStep r u = ({ u with pc := u.pc + 2 }, .err (.stackBounds u.pc (encode .ret) .pop)))

/-- 40_control_flow.md section 1 (R103, "A push/pop pair … restores PC"): a CALL, then a RET executed in any state with
the call stack the CALL left, resumes after the CALL with the call stack's depth as before. -/
def Obligations.ReturnResumesAfterTheMatchingCall : Prop :=
  ∀ (s t u : State) (nnn : Addr12), exec (.call nnn) s = .next t → SameStack t u →
    ∃ w, exec .ret u = .next w ∧ w.pc = s.pc ∧ w.sp = s.sp

/-- R104 and R105, stated whole, and with them the register forms of R106 and R107: each skip adds exactly 2 to `pc` when
its condition holds, whatever the skipped word is, changes nothing else and raises no error; a skip past 0xFFE leaves a
`pc` whose next fetch faults. -/
def Obligations.RegisterSkipResults : Prop :=
  ∀ (s : State) (x y : Nibble) (nn : Byte),
    (∃ t, exec (.seImm x nn) s = .next t ∧ SameOutsidePc s t ∧
      (t.pc.toNat ≥ 0xFFF → fetch t = .error (.memoryBounds t.pc none (max t.pc.toNat 0x1000))) ∧
      t.pc = if (s.getV x).toNat = nn.toNat then s.pc + 2 else s.pc) ∧
    (∃ t, exec (.sneImm x nn) s = .next t ∧ SameOutsidePc s t ∧
      (t.pc.toNat ≥ 0xFFF → fetch t = .error (.memoryBounds t.pc none (max t.pc.toNat 0x1000))) ∧
      t.pc = if (s.getV x).toNat = nn.toNat then s.pc else s.pc + 2) ∧
    (∃ t, exec (.seReg x y) s = .next t ∧ SameOutsidePc s t ∧
      t.pc = if (s.getV x).toNat = (s.getV y).toNat then s.pc + 2 else s.pc) ∧
    (∃ t, exec (.sneReg x y) s = .next t ∧ SameOutsidePc s t ∧
      t.pc = if (s.getV x).toNat = (s.getV y).toNat then s.pc else s.pc + 2)

/-- 44_input_timers.md section 1 (R190, R191) with decision D6: the key skips follow the latch VX names; VX > 0xF raises
KeyIndexError with VX. -/
def Obligations.KeySkipsFollowTheLatch : Prop :=
  ∀ (s : State) (x : Nibble),
    (∀ k : Nibble, (s.getV x).toNat = k.toNat →
      (∃ t, exec (.skp x) s = .next t ∧ SameOutsidePc s t ∧ t.pc = if s.keyDown k = true then s.pc + 2 else s.pc) ∧
      (∃ t, exec (.sknp x) s = .next t ∧ SameOutsidePc s t ∧ t.pc = if s.keyDown k = true then s.pc else s.pc + 2)) ∧
    ((s.getV x).toNat > 0xF →
      exec (.skp x) s = .fault (.keyIndex (s.pc - 2) (encode (.skp x)) (s.getV x)) ∧
      exec (.sknp x) s = .fault (.keyIndex (s.pc - 2) (encode (.sknp x)) (s.getV x)))

/-! ## Register loads, arithmetic, logic, shifts, random -/

/-- R130 and R131, stated whole: 6XNN writes NN; 7XNN adds modulo 256 and writes no flag; executed in turn they give
`(NN + NN2) mod 256`. -/
def Obligations.LoadAndAddImmediateResults : Prop :=
  ∀ (s : State) (x : Nibble) (nn nn2 : Byte),
    (∃ t, exec (.ldImm x nn) s = .next t ∧ t.getV x = nn ∧ SameVBut [x] s t ∧ t.pc = s.pc ∧ SameOutsideVPc s t ∧
      ∃ u, exec (.addImm x nn2) t = .next u ∧ (u.getV x).toNat = (nn.toNat + nn2.toNat) % 256) ∧
    (∃ t, exec (.addImm x nn) s = .next t ∧ (t.getV x).toNat = ((s.getV x).toNat + nn.toNat) % 256 ∧
      SameVBut [x] s t ∧ t.pc = s.pc ∧ SameOutsideVPc s t)

/-- 41_alu.md section 2 (R132 to R135) with decision D10: the register copy and the bitwise operations write VX and, in
particular, leave VF alone unless X = 0xF. The bits of the result are said one by one. -/
def Obligations.RegisterCopyAndLogicResults : Prop :=
  ∀ (s : State) (x y : Nibble),
    (∃ t, exec (.ldReg x y) s = .next t ∧ t.getV x = s.getV y ∧ SameVBut [x] s t ∧ t.pc = s.pc ∧ SameOutsideVPc s t) ∧
    (∃ t, exec (.orReg x y) s = .next t ∧ SameVBut [x] s t ∧ t.pc = s.pc ∧ SameOutsideVPc s t ∧
      ∀ b < 8, (t.getV x).getLsbD b = ((s.getV x).getLsbD b || (s.getV y).getLsbD b)) ∧
    (∃ t, exec (.andReg x y) s = .next t ∧ SameVBut [x] s t ∧ t.pc = s.pc ∧ SameOutsideVPc s t ∧
      ∀ b < 8, (t.getV x).getLsbD b = ((s.getV x).getLsbD b && (s.getV y).getLsbD b)) ∧
    (∃ t, exec (.xorReg x y) s = .next t ∧ SameVBut [x] s t ∧ t.pc = s.pc ∧ SameOutsideVPc s t ∧
      ∀ b < 8, (t.getV x).getLsbD b = ((s.getV x).getLsbD b != (s.getV y).getLsbD b))

/-- R136, stated whole: the sum modulo 256 in VX, the carry in VF; with X = 0xF the flag is what VF ends as. -/
def Obligations.AddRegistersSetsCarry : Prop :=
  ∀ (s : State) (x y : Nibble),
    ∃ t, exec (.addReg x y) s = .next t ∧
      (x ≠ 0xF → (t.getV x).toNat = ((s.getV x).toNat + (s.getV y).toNat) % 256) ∧
      (t.getV 0xF).toNat = (if (s.getV x).toNat + (s.getV y).toNat > 255 then 1 else 0) ∧
      SameVBut [x, 0xF] s t ∧ t.pc = s.pc ∧ SameOutsideVPc s t

/-- R137 and R139, stated whole: the difference modulo 256 in VX, no-borrow in VF (1 for equal operands); with X = 0xF
the flag is what VF ends as. -/
def Obligations.SubtractSetsNoBorrow : Prop :=
  ∀ (s : State) (x y : Nibble),
    (∃ t, exec (.subReg x y) s = .next t ∧
      (x ≠ 0xF → ((t.getV x).toNat : Int) = ((s.getV x).toNat - (s.getV y).toNat : Int) % 256) ∧
      (t.getV 0xF).toNat = (if (s.getV x).toNat < (s.getV y).toNat then 0 else 1) ∧
      SameVBut [x, 0xF] s t ∧ t.pc = s.pc ∧ SameOutsideVPc s t) ∧
    (∃ t, exec (.subnReg x y) s = .next t ∧
      (x ≠ 0xF → ((t.getV x).toNat : Int) = ((s.getV y).toNat - (s.getV x).toNat : Int) % 256) ∧
      (t.getV 0xF).toNat = (if (s.getV y).toNat < (s.getV x).toNat then 0 else 1) ∧
      SameVBut [x, 0xF] s t ∧ t.pc = s.pc ∧ SameOutsideVPc s t)

/-- 41_alu.md section 2 (R138, R140) with decision D11: the shifts work on VX in place, whatever Y is, and VF ends as
the bit shifted out. -/
def Obligations.ShiftsInPlaceSetTheBitShiftedOut : Prop :=
  ∀ (s : State) (x y : Nibble),
    (∃ t, exec (.shr x y) s = .next t ∧ (x ≠ 0xF → (t.getV x).toNat = (s.getV x).toNat / 2) ∧
      (t.getV 0xF).toNat = (s.getV x).toNat % 2 ∧ SameVBut [x, 0xF] s t ∧ t.pc = s.pc ∧ SameOutsideVPc s t) ∧
    (∃ t, exec (.shl x y) s = .next t ∧ (x ≠ 0xF → (t.getV x).toNat = (s.getV x).toNat * 2 % 256) ∧
      (t.getV 0xF).toNat = (s.getV x).toNat / 128 ∧ SameVBut [x, 0xF] s t ∧ t.pc = s.pc ∧ SameOutsideVPc s t)

/-- 41_alu.md section 3 (R141) with decision D15: for every random input `rnd`, VX is `rnd & NN`, bit by bit. -/
def Obligations.RandomByteIsMasked : Prop :=
  ∀ (s : State) (x : Nibble) (nn rnd : Byte), ∃ t, exec (.rnd x nn) (s.withRnd rnd) = .next t ∧
    (∀ b < 8, (t.getV x).getLsbD b = (rnd.getLsbD b && nn.getLsbD b)) ∧
    SameVBut [x] (s.withRnd rnd) t ∧ t.pc = s.pc ∧ SameOutsideVPc (s.withRnd rnd) t

/-- 30_encoding.md section 5 with decision D15: `rnd` reaches no instruction but CXNN: every other one does the same
for every random input. -/
def Obligations.RandomInputReachesOnlyRnd : Prop :=
  ∀ (i : Instr) (s : State) (r : Byte), (∀ x nn, i ≠ .rnd x nn) →
    (∀ t, exec i s = .next t → exec i (s.withRnd r) = .next (t.withRnd r)) ∧
    (∀ f, exec i s = .fault f → exec i (s.withRnd r) = .fault f)

/-- 10_state.md section 2 (R22, R23) with decision D10: VF keeps its value unless the instruction is one of the six that
write the flag or names VF as its destination. -/
def Obligations.OnlyFlagInstructionsOrDestinationsWriteVF : Prop :=
  ∀ (i : Instr) (s t : State), exec i s = .next t → t.getV 0xF ≠ s.getV 0xF →
    match i with
    | .addReg _ _ | .subReg _ _ | .shr _ _ | .subnReg _ _ | .shl _ _ | .drw _ _ _ => t.getV 0xF = 0 ∨ t.getV 0xF = 1
    | .ldImm x _ | .addImm x _ | .rnd x _ => x = 0xF
    | .ldReg x _ | .orReg x _ | .andReg x _ | .xorReg x _ => x = 0xF
    | .ldVxDt x | .ldVxK x | .ldRegs x => x = 0xF
    | _ => False

/-! ## Index register and memory -/

/-- R160 and R162, stated whole: ANNN loads I; FX29 writes `5 × VX`, unmasked, also for VX above 0xF. -/
def Obligations.IndexLoadAndGlyphAddressResults : Prop :=
  ∀ (s : State) (x : Nibble) (nnn : Addr12),
    (∃ t, exec (.ldI nnn) s = .next t ∧ t.i.toNat = nnn.toNat ∧ t.pc = s.pc ∧ SameV s t ∧ SameStack s t ∧
      SameKeys s t ∧ SameScreen s t ∧ SameTimers s t ∧ SameMemory s t ∧ SameInputs s t) ∧
    (∃ t, exec (.ldF x) s = .next t ∧ t.i.toNat = 5 * (s.getV x).toNat ∧ t.pc = s.pc ∧ SameV s t ∧ SameStack s t ∧
      SameKeys s t ∧ SameScreen s t ∧ SameTimers s t ∧ SameMemory s t ∧ SameInputs s t)

/-- 42_index_memory.md section 1 (R161) with decision D10: I wraps modulo 2^16, and no register, VF included, changes. -/
def Obligations.AddToIndexWrapsWithoutFlag : Prop :=
  ∀ (s : State) (x : Nibble),
    ∃ t, exec (.addI x) s = .next t ∧ t.i.toNat = (s.i.toNat + (s.getV x).toNat) % 65536 ∧ t.pc = s.pc ∧ SameV s t ∧
      SameStack s t ∧ SameKeys s t ∧ SameScreen s t ∧ SameTimers s t ∧ SameMemory s t ∧ SameInputs s t

/-- 42_index_memory.md section 2 (R163) with decisions D7 and D10: the three decimal digits at I, I + 1 and I + 2, or
MemoryBoundsError when I + 2 > 0xFFF. -/
def Obligations.BcdDigitsAreStored : Prop :=
  ∀ (s : State) (x : Nibble),
    (s.i.toNat + 2 ≤ 0xFFF → ∃ t, exec (.ldB x) s = .next t ∧
      (t.byte s.i.toNat).toNat = (s.getV x).toNat / 100 ∧
      (t.byte (s.i.toNat + 1)).toNat = (s.getV x).toNat / 10 % 10 ∧
      (t.byte (s.i.toNat + 2)).toNat = (s.getV x).toNat % 10 ∧
      (∀ a, a < s.i.toNat ∨ s.i.toNat + 2 < a → t.byte a = s.byte a) ∧
      t.pc = s.pc ∧ SameV s t ∧ t.i = s.i ∧ SameStack s t ∧ SameKeys s t ∧ SameScreen s t ∧ SameTimers s t ∧
      SameInputs s t) ∧
    (s.i.toNat + 2 > 0xFFF →
      exec (.ldB x) s = .fault (.memoryBounds (s.pc - 2) (some (encode (.ldB x))) (max s.i.toNat 0x1000)))

/-- 42_index_memory.md section 3 (R164) with decisions D7 and D10: V0 to VX at I to I + X, the font region not excepted
(D9), or MemoryBoundsError when I + X > 0xFFF. -/
def Obligations.BlockStoreResults : Prop :=
  ∀ (s : State) (x : Nibble),
    (s.i.toNat + x.toNat ≤ 0xFFF → ∃ t, exec (.stRegs x) s = .next t ∧
      (∀ k : Nibble, k.toNat ≤ x.toNat → t.byte (s.i.toNat + k.toNat) = s.getV k) ∧
      (∀ a, a < s.i.toNat ∨ s.i.toNat + x.toNat < a → t.byte a = s.byte a) ∧
      t.pc = s.pc ∧ SameV s t ∧ t.i = s.i ∧ SameStack s t ∧ SameKeys s t ∧ SameScreen s t ∧ SameTimers s t ∧
      SameInputs s t) ∧
    (s.i.toNat + x.toNat > 0xFFF →
      exec (.stRegs x) s = .fault (.memoryBounds (s.pc - 2) (some (encode (.stRegs x))) (max s.i.toNat 0x1000)))

/-- 42_index_memory.md section 3 (R165) with decisions D7 and D10: V0 to VX from I to I + X, the registers above X
unchanged, or MemoryBoundsError when I + X > 0xFFF. -/
def Obligations.BlockLoadResults : Prop :=
  ∀ (s : State) (x : Nibble),
    (s.i.toNat + x.toNat ≤ 0xFFF → ∃ t, exec (.ldRegs x) s = .next t ∧
      (∀ k : Nibble, k.toNat ≤ x.toNat → t.getV k = s.byte (s.i.toNat + k.toNat)) ∧
      (∀ k : Nibble, x.toNat < k.toNat → t.getV k = s.getV k) ∧ t.pc = s.pc ∧ SameOutsideVPc s t) ∧
    (s.i.toNat + x.toNat > 0xFFF →
      exec (.ldRegs x) s = .fault (.memoryBounds (s.pc - 2) (some (encode (.ldRegs x))) (max s.i.toNat 0x1000)))

/-- 42_index_memory.md section 3 (R164, R165): what FX55 stored, FX65 of the same X loads back, from any state with that
memory and I. -/
def Obligations.BlockLoadRestoresWhatBlockStoreSaved : Prop :=
  ∀ (s t u : State) (x : Nibble), exec (.stRegs x) s = .next t → SameMemory t u → u.i = s.i →
    ∃ w, exec (.ldRegs x) u = .next w ∧ ∀ k : Nibble, k.toNat ≤ x.toNat → w.getV k = s.getV k

/-- Log entry 3: in canonical form, memories that read the same are equal, and so are the states' memories. -/
def Obligations.CanonicalMemoriesThatReadAlikeAreEqual : Prop :=
  ∀ m n : Memory, m.wf = true → n.wf = true → (∀ a < 0x1000, m.get a = n.get a) → m = n

/-- 20_memory.md section 1 (R50): no instruction but FX33 and FX55 changes a byte of memory. -/
def Obligations.OnlyBcdAndBlockStoreChangeMemory : Prop :=
  ∀ (i : Instr) (s t : State), exec i s = .next t → (∃ a, t.byte a ≠ s.byte a) → ∃ x, i = .ldB x ∨ i = .stRegs x

/-- 10_state.md section 5 (R29) with decision D10: no instruction but ANNN, FX1E and FX29 changes I. -/
def Obligations.OnlyIndexInstructionsChangeI : Prop :=
  ∀ (i : Instr) (s t : State), exec i s = .next t → t.i ≠ s.i →
    (∃ nnn, i = .ldI nnn) ∨ ∃ x, i = .addI x ∨ i = .ldF x

/-- 20_memory.md section 7 (R61, which the spec derives): a word stored by FX55 is what the next STEP at its address
fetches. -/
def Obligations.FetchSeesAnEarlierStore : Prop :=
  ∀ (s t u : State) (x : Nibble), x ≠ 0 → exec (.stRegs x) s = .next t → u.mem = t.mem → u.pc = s.i →
    fetch u = .ok (wordOfBytes (s.getV 0) (s.getV 1))

/-! ## Graphics -/

/-- R180, stated whole: CLS turns every pixel off and changes nothing else. -/
def Obligations.ClearScreenTurnsEveryPixelOff : Prop :=
  ∀ s : State, ∃ t, exec .cls s = .next t ∧ (∀ x y, t.pixel x y = false) ∧ t.pc = s.pc ∧ SameV s t ∧ t.i = s.i ∧
    SameStack s t ∧ SameKeys s t ∧ SameTimers s t ∧ SameMemory s t ∧ SameInputs s t

/-- 43_graphics.md section 2 (R181, R184) with decision D12: the framebuffer becomes the old one XOR the sprite's set
bits, both axes wrapping; VF is 1 exactly when a set bit falls on a pixel that was on; a sprite that leaves memory
raises MemoryBoundsError. -/
def Obligations.DrawXorsTheSpriteAndReportsCollision : Prop :=
  ∀ (s : State) (x y n : Nibble),
    ((n = 0 ∨ s.i.toNat + n.toNat ≤ 0x1000) → ∃ t, exec (.drw x y n) s = .next t ∧
      (∀ px py, SpriteSets s (s.getV x) (s.getV y) n px py → t.pixel px py = !(s.pixel px py)) ∧
      (∀ px py, ¬ SpriteSets s (s.getV x) (s.getV y) n px py → t.pixel px py = s.pixel px py) ∧
      ((∃ px py, SpriteSets s (s.getV x) (s.getV y) n px py ∧ s.pixel px py = true) → t.getV 0xF = 1) ∧
      ((¬ ∃ px py, SpriteSets s (s.getV x) (s.getV y) n px py ∧ s.pixel px py = true) → t.getV 0xF = 0) ∧
      SameVBut [0xF] s t ∧ t.pc = s.pc ∧ t.i = s.i ∧ SameStack s t ∧ SameKeys s t ∧ SameTimers s t ∧ SameMemory s t ∧
      SameInputs s t) ∧
    (n ≠ 0 → s.i.toNat + n.toNat > 0x1000 →
      exec (.drw x y n) s = .fault (.memoryBounds (s.pc - 2) (some (encode (.drw x y n))) (max s.i.toNat 0x1000)))

/-- 43_graphics.md section 2 (R183) with decision D13: N = 0 draws nothing, reads no memory whatever I is, and clears
VF. -/
def Obligations.DrawOfZeroRowsOnlyClearsVF : Prop :=
  ∀ (s : State) (x y : Nibble), ∃ t, exec (.drw x y 0) s = .next t ∧ SameScreen s t ∧ t.getV 0xF = 0 ∧
    SameVBut [0xF] s t ∧ t.pc = s.pc ∧ SameOutsideVPc s t

/-- 43_graphics.md section 2 (R185, which the spec derives; conflict C12): a second draw of the same sprite at the same
place restores the framebuffer, and its VF is 1 exactly when some pixel under a set bit was off before the first. -/
def Obligations.DrawingTwiceRestoresTheFramebuffer : Prop :=
  ∀ (s t u w : State) (x y n : Nibble),
    exec (.drw x y n) s = .next t → SameScreen t u → SameMemory s u → u.i = s.i →
    u.getV x = s.getV x → u.getV y = s.getV y → exec (.drw x y n) u = .next w →
    SameScreen s w ∧
    (w.getV 0xF = 1 ↔ ∃ px py, SpriteSets s (s.getV x) (s.getV y) n px py ∧ s.pixel px py = false)

/-! ## Keypad and timers -/

/-- R192, R194 and R195, stated whole: FX07 reads DT; FX15 and FX18 write a timer, which a TICK then counts down; the sound
is active while ST > 0. -/
def Obligations.TimerInstructionResults : Prop :=
  ∀ (s : State) (x : Nibble),
    (∃ t, exec (.ldVxDt x) s = .next t ∧ t.getV x = s.dt ∧ SameVBut [x] s t ∧ t.pc = s.pc ∧ SameOutsideVPc s t) ∧
    (∃ t, exec (.ldDtVx x) s = .next t ∧ t.dt = s.getV x ∧ t.st = s.st ∧
      t.tick.dt.toNat = (s.getV x).toNat - 1 ∧ t.pc = s.pc ∧ SameV s t ∧ t.i = s.i ∧
      SameStack s t ∧ SameKeys s t ∧ SameScreen s t ∧ SameMemory s t ∧ SameInputs s t) ∧
    (∃ t, exec (.ldStVx x) s = .next t ∧ t.st = s.getV x ∧ t.dt = s.dt ∧ t.soundActive = decide ((s.getV x).toNat ≠ 0) ∧
      t.tick.soundActive = decide ((s.getV x).toNat ≥ 2) ∧ t.pc = s.pc ∧ SameV s t ∧ t.i = s.i ∧ SameStack s t ∧ SameKeys s t ∧ SameScreen s t ∧ SameMemory s t ∧
      SameInputs s t)

/-- R193, stated whole: with a key latched VX gets the lowest index and the latches stay; with none latched `pc` goes
back to the instruction and nothing else changes. -/
def Obligations.BlockOnKeyTakesTheLowestKeyOrRewinds : Prop :=
  ∀ (s : State) (x : Nibble),
    (∀ k : Nibble, s.keyDown k = true → (∀ j : Nibble, j.toNat < k.toNat → s.keyDown j = false) →
      ∃ t, exec (.ldVxK x) s = .next t ∧ (t.getV x).toNat = k.toNat ∧ SameVBut [x] s t ∧ t.pc = s.pc ∧
        SameOutsideVPc s t) ∧
    ((∀ k : Nibble, s.keyDown k = false) →
      ∃ t, exec (.ldVxK x) s = .next t ∧ t.pc = s.pc - 2 ∧ SameOutsidePc s t)

/-- 44_input_timers.md section 3 (R193's example): a STEP at an FX0A with no key latched ends with `pc` where it was. -/
def Obligations.WaitingForAKeyStaysAtTheInstruction : Prop :=
  ∀ (s : State) (x : Nibble) (r : Byte), s.pc.toNat ≤ 0xFFE → s.wordAtPc.toNat = 0xF00A + 256 * x.toNat →
    (∀ k : Nibble, s.keyDown k = false) → transactStep r s = ({ s with rnd := r }, .ok)

/-- 10_state.md section 8 (R34, R35, R36) and section 6 (R30): no instruction changes a key latch; only FX15 changes DT,
FX18 ST, 00E0 and DXYN the framebuffer, 2NNN and 00EE SP, and 2NNN a stack slot. -/
def Obligations.OnlyNamedInstructionsChangeDevicesAndStack : Prop :=
  ∀ (i : Instr) (s t : State), exec i s = .next t →
    SameKeys s t ∧ (t.dt ≠ s.dt → ∃ x, i = .ldDtVx x) ∧ (t.st ≠ s.st → ∃ x, i = .ldStVx x) ∧
    (¬ SameScreen s t → i = .cls ∨ ∃ x y n, i = .drw x y n) ∧
    (t.sp ≠ s.sp → i = .ret ∨ ∃ nnn, i = .call nnn) ∧ (t.stack ≠ s.stack → ∃ nnn, i = .call nnn)

/-! ## The host's transactions -/

/-- R223, stated whole, over any number of TICKs: each timer goes down by one a TICK, stays at 0, and nothing else
changes. -/
def Obligations.TicksCountBothTimersDownToZero : Prop :=
  ∀ (n : Nat) (s : State), let t := State.tick^[n] s
    t.dt.toNat = s.dt.toNat - n ∧ t.st.toNat = s.st.toNat - n ∧ t.pc = s.pc ∧ SameV s t ∧ t.i = s.i ∧ SameStack s t ∧
    SameKeys s t ∧ SameScreen s t ∧ SameMemory s t ∧ SameInputs s t

/-- 60_exceptions.md section 5 (R235) with decision D23: SET_KEY writes the one latch. -/
def Obligations.SetKeyWritesTheOneLatch : Prop :=
  ∀ (font : Config.FontRom) (s : State) (k : Nibble) (pressed : Bool),
    let t := (transact font (.setKey k pressed) s).1
    t.keyDown k = pressed ∧ (∀ j, j ≠ k → t.keyDown j = s.keyDown j) ∧ t.pc = s.pc ∧ SameV s t ∧ t.i = s.i ∧
    SameStack s t ∧ SameScreen s t ∧ SameTimers s t ∧ SameMemory s t ∧ SameInputs s t

/-- 60_exceptions.md section 5 (R232) with decision D16: LOAD copies the bytes to 0x200 on and changes nothing else, or
answers the bounds error and writes nothing. -/
def Obligations.LoadCopiesTheProgramOrRefuses : Prop :=
  ∀ (font : Config.FontRom) (s : State) (bytes : List Byte),
    (bytes.length ≤ 3584 → ∃ t, transact font (.load bytes) s = (t, .ok) ∧
      (∀ j (h : j < bytes.length), t.byte (0x200 + j) = bytes[j]) ∧
      (∀ a, a < 0x200 ∨ 0x200 + bytes.length ≤ a → t.byte a = s.byte a) ∧
      t.pc = s.pc ∧ SameV s t ∧ t.i = s.i ∧ SameStack s t ∧ SameKeys s t ∧ SameScreen s t ∧ SameTimers s t ∧
      SameInputs s t) ∧
    (bytes.length > 3584 → transact font (.load bytes) s = (s, .loadErr 0x1000))

/-- 70_reset_and_hazards.md section 1 (R250, R251) with decisions D14 and D23: RESET and INITIALIZE give every item its
reset value from any state, for any FONT_ROM; the inputs of the random source stay. -/
def Obligations.ResetRestoresEveryItem : Prop :=
  ∀ (font : Config.FontRom) (s : State),
    let t := (transact font .reset s).1
    t = (transact font .create s).1 ∧ t.pc = 0x200 ∧ (∀ (a : Nat) (h : a < 80), t.byte a = font[a]) ∧
    (∀ a, 80 ≤ a → t.byte a = 0) ∧ (∀ x, t.getV x = 0) ∧ t.i = 0 ∧ t.sp = 0 ∧ (∀ j : Fin 16, t.stack[j] = 0) ∧
    (∀ k, t.keyDown k = false) ∧ (∀ x y, t.pixel x y = false) ∧ t.dt = 0 ∧ t.st = 0 ∧ t.soundActive = false ∧
    t.mem.wf = true ∧ SameInputs s t

/-- 70_reset_and_hazards.md section 2 (R254, which the spec derives): with memory as reset leaves it, STEPs run NOPs up
to `pc = 0x1000`, every other item of the core staying as reset leaves it, and the 1793rd reports MemoryBoundsError at
its fetch. -/
def Obligations.StepsBeforeLoadRunNopsToTheEndOfMemory : Prop :=
  (∀ k ≤ 1792, ∃ t, Host.Core.run Sys2Proof.core k State.reset = .next t ∧ t.pc.toNat = 0x200 + 2 * k ∧
    SameV State.reset t ∧ t.i = 0 ∧ SameStack State.reset t ∧ SameKeys State.reset t ∧ SameScreen State.reset t ∧
    SameTimers State.reset t ∧ SameMemory State.reset t) ∧
  Host.Core.run Sys2Proof.core 1793 State.reset = .fault (.memoryBounds 0x1000 none 0x1000)

/-- 60_exceptions.md section 5 (R233, R237) with decision D15 and log entry 1: the host's `step`, its random inputs
supplied in the state, is the STEP(rnd) transaction: a run of `step` that answers Ok is the schedule of STEPs with those
inputs, error-free, and ends in the same state up to the inputs' own fields. -/
def Obligations.CoreRunIsTheScheduleOfSteps : Prop :=
  ∀ (font : Config.FontRom) (inputs : List Byte) (s t : State), s.rndInputs = inputs →
    Host.Core.run Sys2Proof.core inputs.length s = .next t →
    ErrFree font (inputs.map .step) s ∧
    { (runSchedule font (inputs.map .step) s).1 with rndInputs := t.rndInputs, stepCount := t.stepCount } = t

/-- 60_exceptions.md section 1 (R216 with R211, R232 and decision D4): what every error records. Only STEP and LOAD answer
one. A STEP error records its code, the fetch address, the word unless the fetch failed, and the one field of its kind;
the error of a LOAD records code 2 and the address 0x1000. -/
def Obligations.EveryErrorRecordsItsInformation : Prop :=
  ∀ (font : Config.FontRom) (t : Transaction) (s : State) (info : ErrorInfo),
    (transact font t s).2.errorInfo = some info →
    (∃ r, t = .step r ∧ info.fetchPc = some s.pc ∧
      info.op = (if s.pc.toNat ≥ 0xFFF then none else some s.wordAtPc) ∧
      ((info.code = 1 ∧ info.addr = none ∧ info.stackOp = none ∧ info.key = none) ∨
       (info.code = 2 ∧ info.addr = some (max (if s.pc.toNat ≥ 0xFFF then s.pc.toNat else s.i.toNat) 0x1000) ∧
        info.stackOp = none ∧ info.key = none) ∨
       (info.code = 3 ∧ info.addr = none ∧ info.key = none ∧
        ((info.stackOp = some .push ∧ s.sp.val = 16) ∨ (info.stackOp = some .pop ∧ s.sp.val = 0))) ∨
       (info.code = 4 ∧ info.addr = none ∧ info.stackOp = none ∧
        info.key = some (s.getV (digit2 s.wordAtPc)) ∧ (s.getV (digit2 s.wordAtPc)).toNat > 0xF))) ∨
    (∃ bytes, t = .load bytes ∧ bytes.length > 3584 ∧ info.code = 2 ∧ info.fetchPc = none ∧ info.op = none ∧
      info.addr = some 0x1000 ∧ info.stackOp = none ∧ info.key = none)

/-- 40_control_flow.md section 1 (R100, "Zeroed memory executes as a sequence of NOPs"): a STEP over two zero bytes advances
`pc` by 2 and changes nothing else of the core; the inputs of the random source are drawn as for every STEP (log entry
1). -/
def Obligations.StepOverZeroedMemoryOnlyAdvances : Prop :=
  ∀ s : State, s.pc.toNat ≤ 0xFFE → s.byte s.pc.toNat = 0 → s.byte (s.pc.toNat + 1) = 0 →
    ∃ t, step s = .next t ∧ t.pc.toNat = s.pc.toNat + 2 ∧ SameV s t ∧ t.i = s.i ∧ SameStack s t ∧ SameKeys s t ∧
      SameScreen s t ∧ SameTimers s t ∧ SameMemory s t ∧ t.rnd = s.nextRnd ∧ t.rndInputs = s.rndInputs.tail ∧
      t.stepCount = s.stepCount + 1
end

