-- ==== Sys2Proof/Laws/Decode.lean ====
section
/-! SUPPORT. Fields and layouts as numbers, and the fields of a word that a layout built (30_encoding.md R72, R73). -/

namespace Sys2Proof

/-! ## Fields as numbers -/

@[simp] theorem digit1_toNat (w : Word) : (digit1 w).toNat = w.toNat / 4096 := by
  have := w.isLt
  simp [digit1, Nat.shiftRight_eq_div_pow]
  omega

@[simp] theorem digit2_toNat (w : Word) : (digit2 w).toNat = w.toNat / 256 % 16 := by
  simp [digit2, Nat.shiftRight_eq_div_pow]

@[simp] theorem digit3_toNat (w : Word) : (digit3 w).toNat = w.toNat / 16 % 16 := by
  simp [digit3, Nat.shiftRight_eq_div_pow]

@[simp] theorem digit4_toNat (w : Word) : (digit4 w).toNat = w.toNat % 16 := by
  simp [digit4]

@[simp] theorem lowByte_toNat (w : Word) : (lowByte w).toNat = w.toNat % 256 := by
  simp [lowByte]

@[simp] theorem low12_toNat (w : Word) : (low12 w).toNat = w.toNat % 4096 := by
  simp [low12]

/-! ## Layouts as numbers -/

theorem toNat_append_mul {m n : Nat} (a : BitVec m) (b : BitVec n) :
    (a ++ b).toNat = a.toNat * 2 ^ n + b.toNat := by
  rw [BitVec.toNat_append, Nat.shiftLeft_eq, Nat.mul_comm, ← Nat.two_pow_add_eq_or_of_lt b.isLt]

@[simp] theorem layoutA_toNat (d1 : Nibble) (nnn : Addr12) : (layoutA d1 nnn).toNat = d1.toNat * 4096 + nnn.toNat :=
  toNat_append_mul d1 nnn

@[simp] theorem layoutXK_toNat (d1 x : Nibble) (nn : Byte) :
    (layoutXK d1 x nn).toNat = d1.toNat * 4096 + x.toNat * 256 + nn.toNat := by
  have h : (layoutXK d1 x nn).toNat = d1.toNat * 2 ^ 12 + (x ++ nn).toNat := toNat_append_mul d1 (x ++ nn)
  rw [h, toNat_append_mul]
  omega

@[simp] theorem layoutXY_toNat (d1 x y d4 : Nibble) :
    (layoutXY d1 x y d4).toNat = d1.toNat * 4096 + x.toNat * 256 + y.toNat * 16 + d4.toNat := by
  have h : (layoutXY d1 x y d4).toNat = d1.toNat * 2 ^ 12 + (x ++ (y ++ d4)).toNat :=
    toNat_append_mul d1 (x ++ (y ++ d4))
  have h' : (x ++ (y ++ d4)).toNat = x.toNat * 2 ^ 8 + (y ++ d4).toNat := toNat_append_mul x (y ++ d4)
  rw [h, h', toNat_append_mul]
  omega

@[simp] theorem wordOfBytes_toNat (hi lo : Byte) : (wordOfBytes hi lo).toNat = hi.toNat * 256 + lo.toNat :=
  toNat_append_mul hi lo

/-! ## Fields of a layout -/

section Fields
variable (d1 x y d4 : Nibble) (nn : Byte) (nnn : Addr12)

@[simp] theorem digit1_layoutA : digit1 (layoutA d1 nnn) = d1 :=
  BitVec.eq_of_toNat_eq (by have := d1.isLt; have := nnn.isLt; simp; omega)

@[simp] theorem low12_layoutA : low12 (layoutA d1 nnn) = nnn :=
  BitVec.eq_of_toNat_eq (by have := d1.isLt; have := nnn.isLt; simp; omega)

@[simp] theorem digit1_layoutXK : digit1 (layoutXK d1 x nn) = d1 :=
  BitVec.eq_of_toNat_eq (by have := d1.isLt; have := x.isLt; have := nn.isLt; simp; omega)

@[simp] theorem digit2_layoutXK : digit2 (layoutXK d1 x nn) = x :=
  BitVec.eq_of_toNat_eq (by have := d1.isLt; have := x.isLt; have := nn.isLt; simp; omega)

@[simp] theorem lowByte_layoutXK : lowByte (layoutXK d1 x nn) = nn :=
  BitVec.eq_of_toNat_eq (by have := d1.isLt; have := x.isLt; have := nn.isLt; simp; omega)

@[simp] theorem digit1_layoutXY : digit1 (layoutXY d1 x y d4) = d1 :=
  BitVec.eq_of_toNat_eq (by have := d1.isLt; have := x.isLt; have := y.isLt; have := d4.isLt; simp; omega)

@[simp] theorem digit2_layoutXY : digit2 (layoutXY d1 x y d4) = x :=
  BitVec.eq_of_toNat_eq (by have := d1.isLt; have := x.isLt; have := y.isLt; have := d4.isLt; simp; omega)

@[simp] theorem digit3_layoutXY : digit3 (layoutXY d1 x y d4) = y :=
  BitVec.eq_of_toNat_eq (by have := d1.isLt; have := x.isLt; have := y.isLt; have := d4.isLt; simp; omega)

@[simp] theorem digit4_layoutXY : digit4 (layoutXY d1 x y d4) = d4 :=
  BitVec.eq_of_toNat_eq (by have := d1.isLt; have := x.isLt; have := y.isLt; have := d4.isLt; simp; omega)

end Fields

/-! ## Cases on a nibble: simp then runs the decoder's chain of tests -/

theorem nibble_cases (d : Nibble) :
    d = 0x0#4 ∨ d = 0x1#4 ∨ d = 0x2#4 ∨ d = 0x3#4 ∨ d = 0x4#4 ∨ d = 0x5#4 ∨ d = 0x6#4 ∨ d = 0x7#4 ∨
    d = 0x8#4 ∨ d = 0x9#4 ∨ d = 0xA#4 ∨ d = 0xB#4 ∨ d = 0xC#4 ∨ d = 0xD#4 ∨ d = 0xE#4 ∨ d = 0xF#4 := by
  revert d
  decide

/-! ## Masks of the opcode table -/

theorem getLsbD_layoutA (d1 : Nibble) (nnn : Addr12) (b : Nat) :
    (layoutA d1 nnn).getLsbD b = if b < 12 then nnn.getLsbD b else d1.getLsbD (b - 12) :=
  BitVec.getLsbD_append (x := d1) (y := nnn)

theorem getLsbD_layoutXK (d1 x : Nibble) (nn : Byte) (b : Nat) :
    (layoutXK d1 x nn).getLsbD b =
      if b < 12 then (if b < 8 then nn.getLsbD b else x.getLsbD (b - 8)) else d1.getLsbD (b - 12) := by
  rw [← BitVec.getLsbD_append]
  exact BitVec.getLsbD_append (x := d1) (y := x ++ nn)

theorem getLsbD_layoutXY (d1 x y d4 : Nibble) (b : Nat) :
    (layoutXY d1 x y d4).getLsbD b =
      if b < 12 then (if b < 8 then (if b < 4 then d4.getLsbD b else y.getLsbD (b - 4)) else x.getLsbD (b - 8))
      else d1.getLsbD (b - 12) := by
  rw [← BitVec.getLsbD_append]
  exact (BitVec.getLsbD_append (x := d1) (y := x ++ (y ++ d4))).trans
    (by rw [BitVec.getLsbD_append (x := x) (y := y ++ d4)])

/-- The mask 0xF000 keeps d1. -/
theorem layoutA_mask (d1 : Nibble) (nnn : Addr12) : layoutA d1 nnn &&& 0xF000#16 = layoutA d1 0 := by
  refine BitVec.eq_of_getLsbD_eq fun b hb => ?_
  rw [BitVec.getLsbD_and, getLsbD_layoutA, getLsbD_layoutA]
  interval_cases b <;> simp

theorem layoutXK_mask (d1 x : Nibble) (nn : Byte) : layoutXK d1 x nn &&& 0xF000#16 = layoutXK d1 0 0 := by
  refine BitVec.eq_of_getLsbD_eq fun b hb => ?_
  rw [BitVec.getLsbD_and, getLsbD_layoutXK, getLsbD_layoutXK]
  interval_cases b <;> simp

/-- The mask 0xF0FF keeps d1 and the low byte. -/
theorem layoutXS_mask (d1 x : Nibble) (nn : Byte) : layoutXK d1 x nn &&& 0xF0FF#16 = layoutXK d1 0 nn := by
  refine BitVec.eq_of_getLsbD_eq fun b hb => ?_
  rw [BitVec.getLsbD_and, getLsbD_layoutXK, getLsbD_layoutXK]
  interval_cases b <;> simp

/-- The mask 0xF00F keeps d1 and d4. -/
theorem layoutXY_mask (d1 x y d4 : Nibble) : layoutXY d1 x y d4 &&& 0xF00F#16 = layoutXY d1 0 0 d4 := by
  refine BitVec.eq_of_getLsbD_eq fun b hb => ?_
  rw [BitVec.getLsbD_and, getLsbD_layoutXY, getLsbD_layoutXY]
  interval_cases b <;> simp

theorem layoutXYN_mask (d1 x y d4 : Nibble) : layoutXY d1 x y d4 &&& 0xF000#16 = layoutXY d1 0 0 0 := by
  refine BitVec.eq_of_getLsbD_eq fun b hb => ?_
  rw [BitVec.getLsbD_and, getLsbD_layoutXY, getLsbD_layoutXY]
  interval_cases b <;> simp

/-! ## A word is the layout of its own fields, and its two bytes -/

theorem layoutA_fields (w : Word) : layoutA (digit1 w) (low12 w) = w :=
  BitVec.eq_of_toNat_eq (by have := w.isLt; simp; omega)

theorem layoutXK_fields (w : Word) : layoutXK (digit1 w) (digit2 w) (lowByte w) = w :=
  BitVec.eq_of_toNat_eq (by have := w.isLt; simp; omega)

theorem layoutXY_fields (w : Word) : layoutXY (digit1 w) (digit2 w) (digit3 w) (digit4 w) = w :=
  BitVec.eq_of_toNat_eq (by have := w.isLt; simp; omega)

/-- The bytes memory holds for a word, put together again, are the word (20_memory.md R53). -/
theorem bytesOfWord_eq (w : Word) : ∃ hi lo, bytesOfWord w = [hi, lo] ∧ wordOfBytes hi lo = w := by
  refine ⟨_, _, rfl, BitVec.eq_of_toNat_eq ?_⟩
  have := w.isLt
  simp [Nat.shiftRight_eq_div_pow]
  omega

end Sys2Proof
end

