-- ==== Sys2Proof/Laws/Memory.lean ====
section
/-! SUPPORT. What the memory operations do: read after write, the canonical form kept, and the block accesses
(20_memory.md R55 to R58; log entry 3). -/

namespace Sys2Proof.Machine

/-! ## Read after write -/

theorem Memory.get_filter_ne (m : Memory) (a b : Nat) :
    Memory.get (m.filter fun c => c.1 != a) b = if b = a then Config.resetByte b else m.get b := by
  induction m with
  | nil => simp [Memory.get]
  | cons c m ih =>
    by_cases hc : c.1 = a
    · simp only [List.filter_cons, hc, bne_self_eq_false, Bool.false_eq_true, if_false, ih, Memory.get]
      by_cases hb : b = a
      · simp [hb]
      · simp [hb, Ne.symm hb]
    · simp only [List.filter_cons, bne_iff_ne.mpr hc, if_true, Memory.get, ih]
      by_cases h : c.1 = b
      · simp [h, show b ≠ a from fun e => hc (h.trans e)]
      · simp [h]

theorem Memory.get_insert (m : Memory) (a : Nat) (v : Byte) (b : Nat) (h : ∀ c ∈ m, c.1 ≠ a) :
    (Memory.insert m a v).get b = if b = a then v else m.get b := by
  induction m with
  | nil => simp [Memory.insert, Memory.get, eq_comm]
  | cons c m ih =>
    have hc := h c (by simp)
    simp only [Memory.insert]
    split
    · simp [Memory.get, eq_comm]
    · simp only [Memory.get, ih fun d hd => h d (by simp [hd])]
      by_cases e : c.1 = b
      · simp [e, show b ≠ a from fun e' => hc (e.trans e')]
      · simp [e]

/-- Reading after a write of one byte, anywhere. -/
theorem Memory.get_put (m : Memory) (a : Nat) (v : Byte) (b : Nat) :
    (m.put a v).get b = if b = a then v else m.get b := by
  simp only [Memory.put]
  split
  · rename_i h
    rw [Memory.get_filter_ne]
    split <;> simp_all
  · rw [Memory.get_insert _ _ _ _ (by simp), Memory.get_filter_ne]
    split <;> simp_all

/-! ## The canonical form -/

/-- What one pair of a canonical memory satisfies. -/
def Memory.pairOk (c : Host.Cell) : Prop := c.1 < Config.memSize ∧ c.2 ≠ Config.resetByte c.1

theorem Memory.sortedFrom_iff (low : Option Nat) (m : Memory) :
    Memory.sortedFrom low m = true ↔ (∀ l ∈ low, ∀ c ∈ m, l < c.1) ∧ m.Pairwise fun c d => c.1 < d.1 := by
  induction m generalizing low with
  | nil => simp [Memory.sortedFrom]
  | cons c m ih =>
    cases low with
    | none => simp [Memory.sortedFrom, ih]
    | some l =>
      simp only [Memory.sortedFrom, Bool.and_eq_true, decide_eq_true_eq, ih, Option.mem_def, Option.some.injEq,
        forall_eq', List.pairwise_cons, List.mem_cons, forall_eq_or_imp]
      constructor
      · rintro ⟨h1, h2, h3⟩
        exact ⟨⟨h1, fun d hd => h1.trans (h2 d hd)⟩, h2, h3⟩
      · rintro ⟨⟨h1, -⟩, h2, h3⟩
        exact ⟨h1, h2, h3⟩

/-- The canonical form in terms of the list's pairs. -/
theorem Memory.wf_iff (m : Memory) :
    m.wf = true ↔ (m.Pairwise fun c d => c.1 < d.1) ∧ ∀ c ∈ m, Memory.pairOk c := by
  simp [Memory.wf, Memory.sortedFrom_iff, Memory.pairOk]

theorem Memory.wf_nil : Memory.wf [] = true := by decide

theorem Memory.mem_insert (m : Memory) (a : Nat) (v : Byte) (c : Host.Cell) :
    c ∈ Memory.insert m a v ↔ c = (a, v) ∨ c ∈ m := by
  induction m with
  | nil => simp [Memory.insert]
  | cons d m ih =>
    simp only [Memory.insert]
    split <;> simp [ih, or_left_comm]

theorem Memory.pairwise_insert (m : Memory) (a : Nat) (v : Byte) (h : m.Pairwise fun c d => c.1 < d.1)
    (ha : ∀ c ∈ m, c.1 ≠ a) : (Memory.insert m a v).Pairwise fun c d => c.1 < d.1 := by
  induction m with
  | nil => simp [Memory.insert]
  | cons c m ih =>
    rw [List.pairwise_cons] at h
    have hc := ha c (by simp)
    simp only [Memory.insert]
    split
    · rename_i hlt
      refine List.pairwise_cons.mpr ⟨?_, List.pairwise_cons.mpr h⟩
      rintro d hd
      rcases List.mem_cons.mp hd with rfl | hd
      · exact hlt
      · exact hlt.trans (h.1 d hd)
    · refine List.pairwise_cons.mpr ⟨?_, ih h.2 fun d hd => ha d (by simp [hd])⟩
      intro d hd
      rcases (Memory.mem_insert m a v d).mp hd with rfl | hd
      · show c.1 < a
        omega
      · exact h.1 d hd

/-- A write of a byte inside memory keeps the canonical form. -/
theorem Memory.wf_put (m : Memory) (a : Nat) (v : Byte) (h : m.wf = true) (ha : a < Config.memSize) :
    (m.put a v).wf = true := by
  rw [Memory.wf_iff] at h ⊢
  have hf : ((m.filter fun c => c.1 != a).Pairwise fun c d => c.1 < d.1) ∧
      ∀ c ∈ m.filter fun c => c.1 != a, Memory.pairOk c :=
    ⟨h.1.filter _, fun c hc => h.2 c (List.mem_filter.mp hc).1⟩
  simp only [Memory.put]
  split
  · exact hf
  · rename_i hv
    refine ⟨Memory.pairwise_insert _ _ _ hf.1 (by simp), fun c hc => ?_⟩
    rcases (Memory.mem_insert _ a v c).mp hc with rfl | hc
    · exact ⟨ha, hv⟩
    · exact hf.2 c hc

theorem Memory.get_of_forall_lt (m : Memory) (a : Nat) (h : ∀ c ∈ m, a < c.1) : m.get a = Config.resetByte a := by
  induction m with
  | nil => rfl
  | cons c m ih =>
    have := h c (by simp)
    rw [Memory.get, if_neg (by omega), ih fun d hd => h d (by simp [hd])]

/-! ## The primitives of 00_scope.md R9 -/

theorem Memory.memRead_ok {m : Memory} {a : Nat} (h : a < 0x1000) : m.memRead a = .ok (m.get a) := by
  simp [Memory.memRead, Config.memSize, h]

theorem Memory.memRead_error {m : Memory} {a : Nat} (h : ¬ a < 0x1000) : m.memRead a = .error a := by
  simp [Memory.memRead, Config.memSize, h]

theorem Memory.memWrite_ok {m : Memory} {a : Nat} {v : Byte} (h : a < 0x1000) : m.memWrite a v = .ok (m.put a v) := by
  simp [Memory.memWrite, Config.memSize, h]

theorem Memory.memWrite_error {m : Memory} {a : Nat} {v : Byte} (h : ¬ a < 0x1000) : m.memWrite a v = .error a := by
  simp [Memory.memWrite, Config.memSize, h]

/-! ## Block accesses -/

/-- A block read inside memory, or of no byte: the bytes in ascending order. -/
theorem Memory.readBytes_ok (m : Memory) (a n : Nat) (h : n = 0 ∨ a + n ≤ 0x1000) :
    m.readBytes a n = .ok ((List.range n).map fun k => m.get (a + k)) := by
  induction n generalizing a with
  | zero => rfl
  | succ n ih =>
    have hr := Memory.memRead_ok (m := m) (a := a) (by omega)
    rw [Memory.readBytes, hr]
    simp only [ih (a + 1) (by omega), List.range_succ_eq_map, List.map_cons, List.map_map, Nat.add_zero]
    congr 3
    funext k
    simp [Nat.add_assoc, Nat.add_comm 1 k]

/-- A block read that leaves memory: the lowest address above 0xFFF. -/
theorem Memory.readBytes_error (m : Memory) (a n : Nat) (hn : n ≠ 0) (h : 0x1000 < a + n) :
    m.readBytes a n = .error (max a 0x1000) := by
  induction n generalizing a with
  | zero => exact absurd rfl hn
  | succ n ih =>
    rw [Memory.readBytes]
    by_cases ha : a < 0x1000
    · rw [Memory.memRead_ok ha]
      simp only [ih (a + 1) (by omega) (by omega)]
      congr 1
      omega
    · rw [Memory.memRead_error ha]
      simp only [Except.error.injEq]
      omega

/-- A block write inside memory, or of no byte, answers a memory that holds the bytes there, reads as before elsewhere
and is canonical if the old one was. -/
theorem Memory.writeBytes_ok (m : Memory) (a : Nat) (bs : List Byte) (h : bs = [] ∨ a + bs.length ≤ 0x1000) :
    ∃ m', m.writeBytes a bs = .ok m' ∧ (∀ k (hk : k < bs.length), m'.get (a + k) = bs[k]) ∧
      (∀ b, b < a ∨ a + bs.length ≤ b → m'.get b = m.get b) ∧ (m.wf = true → m'.wf = true) := by
  induction bs generalizing m a with
  | nil => exact ⟨m, rfl, by simp, by simp, id⟩
  | cons v bs ih =>
    simp only [List.length_cons, reduceCtorEq, false_or] at h
    obtain ⟨m', hw, hin, hout, hwf⟩ := ih (m.put a v) (a + 1) (Or.inr (by omega))
    refine ⟨m', by rw [Memory.writeBytes, Memory.memWrite_ok (by omega)]; exact hw, ?_, ?_, ?_⟩
    · intro k hk
      cases k with
      | zero => rw [hout _ (by omega), Memory.get_put]; simp
      | succ k =>
        have := hin k (by simpa using hk)
        rw [show a + (k + 1) = a + 1 + k by omega, this]
        simp
    · intro b hb
      simp only [List.length_cons] at hb
      rw [hout b (by omega), Memory.get_put, if_neg (by omega)]
    · exact fun hm => hwf (Memory.wf_put m a v hm (by simp only [Config.memSize]; omega))

/-- A block write that leaves memory: the lowest address above 0xFFF, and no memory. -/
theorem Memory.writeBytes_error (m : Memory) (a : Nat) (bs : List Byte) (hn : bs ≠ []) (h : 0x1000 < a + bs.length) :
    m.writeBytes a bs = .error (max a 0x1000) := by
  induction bs generalizing m a with
  | nil => exact absurd rfl hn
  | cons v bs ih =>
    simp only [List.length_cons] at h
    rw [Memory.writeBytes]
    by_cases ha : a < 0x1000
    · rw [Memory.memWrite_ok ha]
      simp only
      rw [ih (m.put a v) (a + 1) (by rintro rfl; simp at h; omega) (by omega)]
      congr 1
      omega
    · rw [Memory.memWrite_error ha]
      simp only [Except.error.injEq]
      omega

end Sys2Proof.Machine
end

