-- ==== Sys2Proof/Laws/State.lean ====
section
/-! SUPPORT. One lemma per field per update of the state, true by definition, so that no proof unfolds an update. -/

namespace Sys2Proof.Machine

variable (s : State)

/-! ## setV -/

@[simp] theorem State.setV_pc (x : Nibble) (b : Byte) : (s.setV x b).pc = s.pc := rfl
@[simp] theorem State.setV_mem (x : Nibble) (b : Byte) : (s.setV x b).mem = s.mem := rfl
@[simp] theorem State.setV_v (x : Nibble) (b : Byte) : (s.setV x b).v = s.v.set x.toNat b x.isLt := rfl
@[simp] theorem State.setV_i (x : Nibble) (b : Byte) : (s.setV x b).i = s.i := rfl
@[simp] theorem State.setV_stack (x : Nibble) (b : Byte) : (s.setV x b).stack = s.stack := rfl
@[simp] theorem State.setV_sp (x : Nibble) (b : Byte) : (s.setV x b).sp = s.sp := rfl
@[simp] theorem State.setV_key (x : Nibble) (b : Byte) : (s.setV x b).key = s.key := rfl
@[simp] theorem State.setV_fb (x : Nibble) (b : Byte) : (s.setV x b).fb = s.fb := rfl
@[simp] theorem State.setV_dt (x : Nibble) (b : Byte) : (s.setV x b).dt = s.dt := rfl
@[simp] theorem State.setV_st (x : Nibble) (b : Byte) : (s.setV x b).st = s.st := rfl
@[simp] theorem State.setV_rnd (x : Nibble) (b : Byte) : (s.setV x b).rnd = s.rnd := rfl
@[simp] theorem State.setV_rndInputs (x : Nibble) (b : Byte) : (s.setV x b).rndInputs = s.rndInputs := rfl
@[simp] theorem State.setV_stepCount (x : Nibble) (b : Byte) : (s.setV x b).stepCount = s.stepCount := rfl

/-! ## setI -/

@[simp] theorem State.setI_pc (w : Word) : (s.setI w).pc = s.pc := rfl
@[simp] theorem State.setI_mem (w : Word) : (s.setI w).mem = s.mem := rfl
@[simp] theorem State.setI_v (w : Word) : (s.setI w).v = s.v := rfl
@[simp] theorem State.setI_i (w : Word) : (s.setI w).i = w := rfl
@[simp] theorem State.setI_stack (w : Word) : (s.setI w).stack = s.stack := rfl
@[simp] theorem State.setI_sp (w : Word) : (s.setI w).sp = s.sp := rfl
@[simp] theorem State.setI_key (w : Word) : (s.setI w).key = s.key := rfl
@[simp] theorem State.setI_fb (w : Word) : (s.setI w).fb = s.fb := rfl
@[simp] theorem State.setI_dt (w : Word) : (s.setI w).dt = s.dt := rfl
@[simp] theorem State.setI_st (w : Word) : (s.setI w).st = s.st := rfl
@[simp] theorem State.setI_rnd (w : Word) : (s.setI w).rnd = s.rnd := rfl
@[simp] theorem State.setI_rndInputs (w : Word) : (s.setI w).rndInputs = s.rndInputs := rfl
@[simp] theorem State.setI_stepCount (w : Word) : (s.setI w).stepCount = s.stepCount := rfl

/-! ## setPc -/

@[simp] theorem State.setPc_pc (w : Word) : (s.setPc w).pc = w := rfl
@[simp] theorem State.setPc_mem (w : Word) : (s.setPc w).mem = s.mem := rfl
@[simp] theorem State.setPc_v (w : Word) : (s.setPc w).v = s.v := rfl
@[simp] theorem State.setPc_i (w : Word) : (s.setPc w).i = s.i := rfl
@[simp] theorem State.setPc_stack (w : Word) : (s.setPc w).stack = s.stack := rfl
@[simp] theorem State.setPc_sp (w : Word) : (s.setPc w).sp = s.sp := rfl
@[simp] theorem State.setPc_key (w : Word) : (s.setPc w).key = s.key := rfl
@[simp] theorem State.setPc_fb (w : Word) : (s.setPc w).fb = s.fb := rfl
@[simp] theorem State.setPc_dt (w : Word) : (s.setPc w).dt = s.dt := rfl
@[simp] theorem State.setPc_st (w : Word) : (s.setPc w).st = s.st := rfl
@[simp] theorem State.setPc_rnd (w : Word) : (s.setPc w).rnd = s.rnd := rfl
@[simp] theorem State.setPc_rndInputs (w : Word) : (s.setPc w).rndInputs = s.rndInputs := rfl
@[simp] theorem State.setPc_stepCount (w : Word) : (s.setPc w).stepCount = s.stepCount := rfl

/-! ## advancePc -/

@[simp] theorem State.advancePc_pc : (s.advancePc).pc = s.pc + 2 := rfl
@[simp] theorem State.advancePc_mem : (s.advancePc).mem = s.mem := rfl
@[simp] theorem State.advancePc_v : (s.advancePc).v = s.v := rfl
@[simp] theorem State.advancePc_i : (s.advancePc).i = s.i := rfl
@[simp] theorem State.advancePc_stack : (s.advancePc).stack = s.stack := rfl
@[simp] theorem State.advancePc_sp : (s.advancePc).sp = s.sp := rfl
@[simp] theorem State.advancePc_key : (s.advancePc).key = s.key := rfl
@[simp] theorem State.advancePc_fb : (s.advancePc).fb = s.fb := rfl
@[simp] theorem State.advancePc_dt : (s.advancePc).dt = s.dt := rfl
@[simp] theorem State.advancePc_st : (s.advancePc).st = s.st := rfl
@[simp] theorem State.advancePc_rnd : (s.advancePc).rnd = s.rnd := rfl
@[simp] theorem State.advancePc_rndInputs : (s.advancePc).rndInputs = s.rndInputs := rfl
@[simp] theorem State.advancePc_stepCount : (s.advancePc).stepCount = s.stepCount := rfl

/-! ## rewindPc -/

@[simp] theorem State.rewindPc_pc : (s.rewindPc).pc = s.pc - 2 := rfl
@[simp] theorem State.rewindPc_mem : (s.rewindPc).mem = s.mem := rfl
@[simp] theorem State.rewindPc_v : (s.rewindPc).v = s.v := rfl
@[simp] theorem State.rewindPc_i : (s.rewindPc).i = s.i := rfl
@[simp] theorem State.rewindPc_stack : (s.rewindPc).stack = s.stack := rfl
@[simp] theorem State.rewindPc_sp : (s.rewindPc).sp = s.sp := rfl
@[simp] theorem State.rewindPc_key : (s.rewindPc).key = s.key := rfl
@[simp] theorem State.rewindPc_fb : (s.rewindPc).fb = s.fb := rfl
@[simp] theorem State.rewindPc_dt : (s.rewindPc).dt = s.dt := rfl
@[simp] theorem State.rewindPc_st : (s.rewindPc).st = s.st := rfl
@[simp] theorem State.rewindPc_rnd : (s.rewindPc).rnd = s.rnd := rfl
@[simp] theorem State.rewindPc_rndInputs : (s.rewindPc).rndInputs = s.rndInputs := rfl
@[simp] theorem State.rewindPc_stepCount : (s.rewindPc).stepCount = s.stepCount := rfl

/-! ## setDt -/

@[simp] theorem State.setDt_pc (b : Byte) : (s.setDt b).pc = s.pc := rfl
@[simp] theorem State.setDt_mem (b : Byte) : (s.setDt b).mem = s.mem := rfl
@[simp] theorem State.setDt_v (b : Byte) : (s.setDt b).v = s.v := rfl
@[simp] theorem State.setDt_i (b : Byte) : (s.setDt b).i = s.i := rfl
@[simp] theorem State.setDt_stack (b : Byte) : (s.setDt b).stack = s.stack := rfl
@[simp] theorem State.setDt_sp (b : Byte) : (s.setDt b).sp = s.sp := rfl
@[simp] theorem State.setDt_key (b : Byte) : (s.setDt b).key = s.key := rfl
@[simp] theorem State.setDt_fb (b : Byte) : (s.setDt b).fb = s.fb := rfl
@[simp] theorem State.setDt_dt (b : Byte) : (s.setDt b).dt = b := rfl
@[simp] theorem State.setDt_st (b : Byte) : (s.setDt b).st = s.st := rfl
@[simp] theorem State.setDt_rnd (b : Byte) : (s.setDt b).rnd = s.rnd := rfl
@[simp] theorem State.setDt_rndInputs (b : Byte) : (s.setDt b).rndInputs = s.rndInputs := rfl
@[simp] theorem State.setDt_stepCount (b : Byte) : (s.setDt b).stepCount = s.stepCount := rfl

/-! ## setSt -/

@[simp] theorem State.setSt_pc (b : Byte) : (s.setSt b).pc = s.pc := rfl
@[simp] theorem State.setSt_mem (b : Byte) : (s.setSt b).mem = s.mem := rfl
@[simp] theorem State.setSt_v (b : Byte) : (s.setSt b).v = s.v := rfl
@[simp] theorem State.setSt_i (b : Byte) : (s.setSt b).i = s.i := rfl
@[simp] theorem State.setSt_stack (b : Byte) : (s.setSt b).stack = s.stack := rfl
@[simp] theorem State.setSt_sp (b : Byte) : (s.setSt b).sp = s.sp := rfl
@[simp] theorem State.setSt_key (b : Byte) : (s.setSt b).key = s.key := rfl
@[simp] theorem State.setSt_fb (b : Byte) : (s.setSt b).fb = s.fb := rfl
@[simp] theorem State.setSt_dt (b : Byte) : (s.setSt b).dt = s.dt := rfl
@[simp] theorem State.setSt_st (b : Byte) : (s.setSt b).st = b := rfl
@[simp] theorem State.setSt_rnd (b : Byte) : (s.setSt b).rnd = s.rnd := rfl
@[simp] theorem State.setSt_rndInputs (b : Byte) : (s.setSt b).rndInputs = s.rndInputs := rfl
@[simp] theorem State.setSt_stepCount (b : Byte) : (s.setSt b).stepCount = s.stepCount := rfl

/-! ## setMem -/

@[simp] theorem State.setMem_pc (m : Memory) : (s.setMem m).pc = s.pc := rfl
@[simp] theorem State.setMem_mem (m : Memory) : (s.setMem m).mem = m := rfl
@[simp] theorem State.setMem_v (m : Memory) : (s.setMem m).v = s.v := rfl
@[simp] theorem State.setMem_i (m : Memory) : (s.setMem m).i = s.i := rfl
@[simp] theorem State.setMem_stack (m : Memory) : (s.setMem m).stack = s.stack := rfl
@[simp] theorem State.setMem_sp (m : Memory) : (s.setMem m).sp = s.sp := rfl
@[simp] theorem State.setMem_key (m : Memory) : (s.setMem m).key = s.key := rfl
@[simp] theorem State.setMem_fb (m : Memory) : (s.setMem m).fb = s.fb := rfl
@[simp] theorem State.setMem_dt (m : Memory) : (s.setMem m).dt = s.dt := rfl
@[simp] theorem State.setMem_st (m : Memory) : (s.setMem m).st = s.st := rfl
@[simp] theorem State.setMem_rnd (m : Memory) : (s.setMem m).rnd = s.rnd := rfl
@[simp] theorem State.setMem_rndInputs (m : Memory) : (s.setMem m).rndInputs = s.rndInputs := rfl
@[simp] theorem State.setMem_stepCount (m : Memory) : (s.setMem m).stepCount = s.stepCount := rfl

/-! ## setKey -/

@[simp] theorem State.setKey_pc (k : Nibble) (p : Bool) : (s.setKey k p).pc = s.pc := rfl
@[simp] theorem State.setKey_mem (k : Nibble) (p : Bool) : (s.setKey k p).mem = s.mem := rfl
@[simp] theorem State.setKey_v (k : Nibble) (p : Bool) : (s.setKey k p).v = s.v := rfl
@[simp] theorem State.setKey_i (k : Nibble) (p : Bool) : (s.setKey k p).i = s.i := rfl
@[simp] theorem State.setKey_stack (k : Nibble) (p : Bool) : (s.setKey k p).stack = s.stack := rfl
@[simp] theorem State.setKey_sp (k : Nibble) (p : Bool) : (s.setKey k p).sp = s.sp := rfl
@[simp] theorem State.setKey_key (k : Nibble) (p : Bool) : (s.setKey k p).key = s.key.set k.toNat p k.isLt := rfl
@[simp] theorem State.setKey_fb (k : Nibble) (p : Bool) : (s.setKey k p).fb = s.fb := rfl
@[simp] theorem State.setKey_dt (k : Nibble) (p : Bool) : (s.setKey k p).dt = s.dt := rfl
@[simp] theorem State.setKey_st (k : Nibble) (p : Bool) : (s.setKey k p).st = s.st := rfl
@[simp] theorem State.setKey_rnd (k : Nibble) (p : Bool) : (s.setKey k p).rnd = s.rnd := rfl
@[simp] theorem State.setKey_rndInputs (k : Nibble) (p : Bool) : (s.setKey k p).rndInputs = s.rndInputs := rfl
@[simp] theorem State.setKey_stepCount (k : Nibble) (p : Bool) : (s.setKey k p).stepCount = s.stepCount := rfl

/-! ## setFb -/

@[simp] theorem State.setFb_pc (fb : Framebuffer) : (s.setFb fb).pc = s.pc := rfl
@[simp] theorem State.setFb_mem (fb : Framebuffer) : (s.setFb fb).mem = s.mem := rfl
@[simp] theorem State.setFb_v (fb : Framebuffer) : (s.setFb fb).v = s.v := rfl
@[simp] theorem State.setFb_i (fb : Framebuffer) : (s.setFb fb).i = s.i := rfl
@[simp] theorem State.setFb_stack (fb : Framebuffer) : (s.setFb fb).stack = s.stack := rfl
@[simp] theorem State.setFb_sp (fb : Framebuffer) : (s.setFb fb).sp = s.sp := rfl
@[simp] theorem State.setFb_key (fb : Framebuffer) : (s.setFb fb).key = s.key := rfl
@[simp] theorem State.setFb_fb (fb : Framebuffer) : (s.setFb fb).fb = fb := rfl
@[simp] theorem State.setFb_dt (fb : Framebuffer) : (s.setFb fb).dt = s.dt := rfl
@[simp] theorem State.setFb_st (fb : Framebuffer) : (s.setFb fb).st = s.st := rfl
@[simp] theorem State.setFb_rnd (fb : Framebuffer) : (s.setFb fb).rnd = s.rnd := rfl
@[simp] theorem State.setFb_rndInputs (fb : Framebuffer) : (s.setFb fb).rndInputs = s.rndInputs := rfl
@[simp] theorem State.setFb_stepCount (fb : Framebuffer) : (s.setFb fb).stepCount = s.stepCount := rfl

/-! ## withRnd -/

@[simp] theorem State.withRnd_pc (r : Byte) : (s.withRnd r).pc = s.pc := rfl
@[simp] theorem State.withRnd_mem (r : Byte) : (s.withRnd r).mem = s.mem := rfl
@[simp] theorem State.withRnd_v (r : Byte) : (s.withRnd r).v = s.v := rfl
@[simp] theorem State.withRnd_i (r : Byte) : (s.withRnd r).i = s.i := rfl
@[simp] theorem State.withRnd_stack (r : Byte) : (s.withRnd r).stack = s.stack := rfl
@[simp] theorem State.withRnd_sp (r : Byte) : (s.withRnd r).sp = s.sp := rfl
@[simp] theorem State.withRnd_key (r : Byte) : (s.withRnd r).key = s.key := rfl
@[simp] theorem State.withRnd_fb (r : Byte) : (s.withRnd r).fb = s.fb := rfl
@[simp] theorem State.withRnd_dt (r : Byte) : (s.withRnd r).dt = s.dt := rfl
@[simp] theorem State.withRnd_st (r : Byte) : (s.withRnd r).st = s.st := rfl
@[simp] theorem State.withRnd_rnd (r : Byte) : (s.withRnd r).rnd = r := rfl
@[simp] theorem State.withRnd_rndInputs (r : Byte) : (s.withRnd r).rndInputs = s.rndInputs := rfl
@[simp] theorem State.withRnd_stepCount (r : Byte) : (s.withRnd r).stepCount = s.stepCount := rfl

/-! ## setVFlag, takeRnd, fetched, tick -/

@[simp] theorem State.setVFlag_pc (x : Nibble) (b f : Byte) : (s.setVFlag x b f).pc = s.pc := rfl
@[simp] theorem State.setVFlag_mem (x : Nibble) (b f : Byte) : (s.setVFlag x b f).mem = s.mem := rfl
@[simp] theorem State.setVFlag_i (x : Nibble) (b f : Byte) : (s.setVFlag x b f).i = s.i := rfl
@[simp] theorem State.setVFlag_stack (x : Nibble) (b f : Byte) : (s.setVFlag x b f).stack = s.stack := rfl
@[simp] theorem State.setVFlag_sp (x : Nibble) (b f : Byte) : (s.setVFlag x b f).sp = s.sp := rfl
@[simp] theorem State.setVFlag_key (x : Nibble) (b f : Byte) : (s.setVFlag x b f).key = s.key := rfl
@[simp] theorem State.setVFlag_fb (x : Nibble) (b f : Byte) : (s.setVFlag x b f).fb = s.fb := rfl
@[simp] theorem State.setVFlag_dt (x : Nibble) (b f : Byte) : (s.setVFlag x b f).dt = s.dt := rfl
@[simp] theorem State.setVFlag_st (x : Nibble) (b f : Byte) : (s.setVFlag x b f).st = s.st := rfl
@[simp] theorem State.setVFlag_rnd (x : Nibble) (b f : Byte) : (s.setVFlag x b f).rnd = s.rnd := rfl
@[simp] theorem State.setVFlag_rndInputs (x : Nibble) (b f : Byte) : (s.setVFlag x b f).rndInputs = s.rndInputs := rfl
@[simp] theorem State.setVFlag_stepCount (x : Nibble) (b f : Byte) : (s.setVFlag x b f).stepCount = s.stepCount := rfl
@[simp] theorem State.takeRnd_pc : s.takeRnd.pc = s.pc := rfl
@[simp] theorem State.takeRnd_mem : s.takeRnd.mem = s.mem := rfl
@[simp] theorem State.takeRnd_v : s.takeRnd.v = s.v := rfl
@[simp] theorem State.takeRnd_i : s.takeRnd.i = s.i := rfl
@[simp] theorem State.takeRnd_stack : s.takeRnd.stack = s.stack := rfl
@[simp] theorem State.takeRnd_sp : s.takeRnd.sp = s.sp := rfl
@[simp] theorem State.takeRnd_key : s.takeRnd.key = s.key := rfl
@[simp] theorem State.takeRnd_fb : s.takeRnd.fb = s.fb := rfl
@[simp] theorem State.takeRnd_dt : s.takeRnd.dt = s.dt := rfl
@[simp] theorem State.takeRnd_st : s.takeRnd.st = s.st := rfl
@[simp] theorem State.takeRnd_rnd : s.takeRnd.rnd = s.rnd := rfl
@[simp] theorem State.takeRnd_rndInputs : s.takeRnd.rndInputs = s.rndInputs.tail := rfl
@[simp] theorem State.takeRnd_stepCount : s.takeRnd.stepCount = s.stepCount + 1 := rfl
@[simp] theorem State.fetched_pc (r : Byte) : (s.fetched r).pc = s.pc + 2 := rfl
@[simp] theorem State.fetched_mem (r : Byte) : (s.fetched r).mem = s.mem := rfl
@[simp] theorem State.fetched_v (r : Byte) : (s.fetched r).v = s.v := rfl
@[simp] theorem State.fetched_i (r : Byte) : (s.fetched r).i = s.i := rfl
@[simp] theorem State.fetched_stack (r : Byte) : (s.fetched r).stack = s.stack := rfl
@[simp] theorem State.fetched_sp (r : Byte) : (s.fetched r).sp = s.sp := rfl
@[simp] theorem State.fetched_key (r : Byte) : (s.fetched r).key = s.key := rfl
@[simp] theorem State.fetched_fb (r : Byte) : (s.fetched r).fb = s.fb := rfl
@[simp] theorem State.fetched_dt (r : Byte) : (s.fetched r).dt = s.dt := rfl
@[simp] theorem State.fetched_st (r : Byte) : (s.fetched r).st = s.st := rfl
@[simp] theorem State.fetched_rnd (r : Byte) : (s.fetched r).rnd = r := rfl
@[simp] theorem State.fetched_rndInputs (r : Byte) : (s.fetched r).rndInputs = s.rndInputs := rfl
@[simp] theorem State.fetched_stepCount (r : Byte) : (s.fetched r).stepCount = s.stepCount := rfl
@[simp] theorem State.tick_pc : s.tick.pc = s.pc := rfl
@[simp] theorem State.tick_mem : s.tick.mem = s.mem := rfl
@[simp] theorem State.tick_v : s.tick.v = s.v := rfl
@[simp] theorem State.tick_i : s.tick.i = s.i := rfl
@[simp] theorem State.tick_stack : s.tick.stack = s.stack := rfl
@[simp] theorem State.tick_sp : s.tick.sp = s.sp := rfl
@[simp] theorem State.tick_key : s.tick.key = s.key := rfl
@[simp] theorem State.tick_fb : s.tick.fb = s.fb := rfl
@[simp] theorem State.tick_dt : s.tick.dt = countDown s.dt := rfl
@[simp] theorem State.tick_st : s.tick.st = countDown s.st := rfl
@[simp] theorem State.tick_rnd : s.tick.rnd = s.rnd := rfl
@[simp] theorem State.tick_rndInputs : s.tick.rndInputs = s.rndInputs := rfl
@[simp] theorem State.tick_stepCount : s.tick.stepCount = s.stepCount := rfl

/-! ## Accessors look at one field each -/

theorem State.getV_congr {s t : State} (h : t.v = s.v) (x : Nibble) : t.getV x = s.getV x := by simp [State.getV, h]
theorem State.byte_congr {s t : State} (h : t.mem = s.mem) (a : Nat) : t.byte a = s.byte a := by simp [State.byte, h]
theorem State.keyDown_congr {s t : State} (h : t.key = s.key) (k : Nibble) : t.keyDown k = s.keyDown k := by
  simp [State.keyDown, h]
theorem State.pixel_congr {s t : State} (h : t.fb = s.fb) (x : Fin 64) (y : Fin 32) : t.pixel x y = s.pixel x y := by
  simp [State.pixel, h]

@[simp] theorem State.setV_byte (x : Nibble) (b : Byte) (a : Nat) : (s.setV x b).byte a = s.byte a := rfl
@[simp] theorem State.setV_keyDown (x : Nibble) (b : Byte) (k' : Nibble) : (s.setV x b).keyDown k' = s.keyDown k' := rfl
@[simp] theorem State.setV_pixel (x : Nibble) (b : Byte) (px : Fin 64) (py : Fin 32) :
    (s.setV x b).pixel px py = s.pixel px py := rfl
@[simp] theorem State.setI_getV (w : Word) (q : Nibble) : (s.setI w).getV q = s.getV q := rfl
@[simp] theorem State.setI_byte (w : Word) (a : Nat) : (s.setI w).byte a = s.byte a := rfl
@[simp] theorem State.setI_keyDown (w : Word) (k' : Nibble) : (s.setI w).keyDown k' = s.keyDown k' := rfl
@[simp] theorem State.setI_pixel (w : Word) (px : Fin 64) (py : Fin 32) : (s.setI w).pixel px py = s.pixel px py := rfl
@[simp] theorem State.setPc_getV (w : Word) (q : Nibble) : (s.setPc w).getV q = s.getV q := rfl
@[simp] theorem State.setPc_byte (w : Word) (a : Nat) : (s.setPc w).byte a = s.byte a := rfl
@[simp] theorem State.setPc_keyDown (w : Word) (k' : Nibble) : (s.setPc w).keyDown k' = s.keyDown k' := rfl
@[simp] theorem State.setPc_pixel (w : Word) (px : Fin 64) (py : Fin 32) :
    (s.setPc w).pixel px py = s.pixel px py := rfl
@[simp] theorem State.advancePc_getV (q : Nibble) : (s.advancePc).getV q = s.getV q := rfl
@[simp] theorem State.advancePc_byte (a : Nat) : (s.advancePc).byte a = s.byte a := rfl
@[simp] theorem State.advancePc_keyDown (k' : Nibble) : (s.advancePc).keyDown k' = s.keyDown k' := rfl
@[simp] theorem State.advancePc_pixel (px : Fin 64) (py : Fin 32) : (s.advancePc).pixel px py = s.pixel px py := rfl
@[simp] theorem State.rewindPc_getV (q : Nibble) : (s.rewindPc).getV q = s.getV q := rfl
@[simp] theorem State.rewindPc_byte (a : Nat) : (s.rewindPc).byte a = s.byte a := rfl
@[simp] theorem State.rewindPc_keyDown (k' : Nibble) : (s.rewindPc).keyDown k' = s.keyDown k' := rfl
@[simp] theorem State.rewindPc_pixel (px : Fin 64) (py : Fin 32) : (s.rewindPc).pixel px py = s.pixel px py := rfl
@[simp] theorem State.setDt_getV (b : Byte) (q : Nibble) : (s.setDt b).getV q = s.getV q := rfl
@[simp] theorem State.setDt_byte (b : Byte) (a : Nat) : (s.setDt b).byte a = s.byte a := rfl
@[simp] theorem State.setDt_keyDown (b : Byte) (k' : Nibble) : (s.setDt b).keyDown k' = s.keyDown k' := rfl
@[simp] theorem State.setDt_pixel (b : Byte) (px : Fin 64) (py : Fin 32) :
    (s.setDt b).pixel px py = s.pixel px py := rfl
@[simp] theorem State.setSt_getV (b : Byte) (q : Nibble) : (s.setSt b).getV q = s.getV q := rfl
@[simp] theorem State.setSt_byte (b : Byte) (a : Nat) : (s.setSt b).byte a = s.byte a := rfl
@[simp] theorem State.setSt_keyDown (b : Byte) (k' : Nibble) : (s.setSt b).keyDown k' = s.keyDown k' := rfl
@[simp] theorem State.setSt_pixel (b : Byte) (px : Fin 64) (py : Fin 32) :
    (s.setSt b).pixel px py = s.pixel px py := rfl
@[simp] theorem State.setMem_getV (m : Memory) (q : Nibble) : (s.setMem m).getV q = s.getV q := rfl
@[simp] theorem State.setMem_keyDown (m : Memory) (k' : Nibble) : (s.setMem m).keyDown k' = s.keyDown k' := rfl
@[simp] theorem State.setMem_pixel (m : Memory) (px : Fin 64) (py : Fin 32) :
    (s.setMem m).pixel px py = s.pixel px py := rfl
@[simp] theorem State.setKey_getV (k : Nibble) (p : Bool) (q : Nibble) : (s.setKey k p).getV q = s.getV q := rfl
@[simp] theorem State.setKey_byte (k : Nibble) (p : Bool) (a : Nat) : (s.setKey k p).byte a = s.byte a := rfl
@[simp] theorem State.setKey_pixel (k : Nibble) (p : Bool) (px : Fin 64) (py : Fin 32) :
    (s.setKey k p).pixel px py = s.pixel px py := rfl
@[simp] theorem State.setFb_getV (fb : Framebuffer) (q : Nibble) : (s.setFb fb).getV q = s.getV q := rfl
@[simp] theorem State.setFb_byte (fb : Framebuffer) (a : Nat) : (s.setFb fb).byte a = s.byte a := rfl
@[simp] theorem State.setFb_keyDown (fb : Framebuffer) (k' : Nibble) : (s.setFb fb).keyDown k' = s.keyDown k' := rfl
@[simp] theorem State.withRnd_getV (r : Byte) (q : Nibble) : (s.withRnd r).getV q = s.getV q := rfl
@[simp] theorem State.withRnd_byte (r : Byte) (a : Nat) : (s.withRnd r).byte a = s.byte a := rfl
@[simp] theorem State.withRnd_keyDown (r : Byte) (k' : Nibble) : (s.withRnd r).keyDown k' = s.keyDown k' := rfl
@[simp] theorem State.withRnd_pixel (r : Byte) (px : Fin 64) (py : Fin 32) :
    (s.withRnd r).pixel px py = s.pixel px py := rfl
@[simp] theorem State.takeRnd_getV (q : Nibble) : (s.takeRnd).getV q = s.getV q := rfl
@[simp] theorem State.takeRnd_byte (a : Nat) : (s.takeRnd).byte a = s.byte a := rfl
@[simp] theorem State.takeRnd_keyDown (k' : Nibble) : (s.takeRnd).keyDown k' = s.keyDown k' := rfl
@[simp] theorem State.takeRnd_pixel (px : Fin 64) (py : Fin 32) : (s.takeRnd).pixel px py = s.pixel px py := rfl
@[simp] theorem State.fetched_getV (r0 : Byte) (q : Nibble) : (s.fetched r0).getV q = s.getV q := rfl
@[simp] theorem State.fetched_byte (r0 : Byte) (a : Nat) : (s.fetched r0).byte a = s.byte a := rfl
@[simp] theorem State.fetched_keyDown (r0 : Byte) (k' : Nibble) : (s.fetched r0).keyDown k' = s.keyDown k' := rfl
@[simp] theorem State.fetched_pixel (r0 : Byte) (px : Fin 64) (py : Fin 32) :
    (s.fetched r0).pixel px py = s.pixel px py := rfl
@[simp] theorem State.tick_getV (q : Nibble) : (s.tick).getV q = s.getV q := rfl
@[simp] theorem State.tick_byte (a : Nat) : (s.tick).byte a = s.byte a := rfl
@[simp] theorem State.tick_keyDown (k' : Nibble) : (s.tick).keyDown k' = s.keyDown k' := rfl
@[simp] theorem State.tick_pixel (px : Fin 64) (py : Fin 32) : (s.tick).pixel px py = s.pixel px py := rfl
@[simp] theorem State.setVFlag_byte (x : Nibble) (b f : Byte) (a : Nat) : (s.setVFlag x b f).byte a = s.byte a := rfl
@[simp] theorem State.setVFlag_keyDown (x : Nibble) (b f : Byte) (k' : Nibble) :
    (s.setVFlag x b f).keyDown k' = s.keyDown k' := rfl
@[simp] theorem State.setVFlag_pixel (x : Nibble) (b f : Byte) (px : Fin 64) (py : Fin 32) :
    (s.setVFlag x b f).pixel px py = s.pixel px py := rfl

/-! ## skipIf -/

@[simp] theorem State.skipIf_pc (c : Bool) : (s.skipIf c).pc = if c then s.pc + 2 else s.pc := by
  cases c <;> rfl

/-- A skip changes `pc` alone. -/
theorem State.skipIf_eq (c : Bool) : s.skipIf c = s.setPc (if c then s.pc + 2 else s.pc) := by
  cases c <;> rfl

end Sys2Proof.Machine
end

