-- ==== Sys2Proof/Laws/Registers.lean ====
section
/-! SUPPORT. What the operations over registers, keys, framebuffer and call stack do (10_state.md R21 to R35). -/

namespace Sys2Proof.Machine

/-! ## General registers -/

theorem State.getV_setV (s : State) (x : Nibble) (b : Byte) (r : Nibble) :
    (s.setV x b).getV r = if r = x then b else s.getV r := by
  simp only [State.getV, State.setV, Vector.getElem_set, BitVec.toNat_inj, eq_comm]

@[simp] theorem State.getV_setV_self (s : State) (x : Nibble) (b : Byte) : (s.setV x b).getV x = b := by
  simp [State.getV_setV]

theorem State.getV_setV_ne (s : State) {x r : Nibble} (b : Byte) (h : r ≠ x) : (s.setV x b).getV r = s.getV r := by
  simp [State.getV_setV, h]

/-- VF is written last, so it wins when X = 0xF (R22). -/
theorem State.getV_setVFlag (s : State) (x : Nibble) (b f : Byte) (r : Nibble) :
    (s.setVFlag x b f).getV r = if r = 0xF#4 then f else if r = x then b else s.getV r := by
  simp only [State.setVFlag, State.getV_setV, regF]

@[simp] theorem State.getV_setVFlag_regF (s : State) (x : Nibble) (b f : Byte) : (s.setVFlag x b f).getV 0xF#4 = f := by
  simp [State.getV_setVFlag]

theorem State.getV_setVFlag_self (s : State) {x : Nibble} (b f : Byte) (h : x ≠ 0xF#4) :
    (s.setVFlag x b f).getV x = b := by
  simp [State.getV_setVFlag, h]

/-- A register list is written to the registers from number `k` on (at most the sixteen there are). -/
theorem State.getV_setVs (s : State) (k : Nat) (bs : List Byte) (h : k + bs.length ≤ 16) (r : Nibble) :
    (s.setVs k bs).getV r =
      if hr : k ≤ r.toNat ∧ r.toNat < k + bs.length then bs[r.toNat - k]'(by omega) else s.getV r := by
  induction bs generalizing s k with
  | nil => simp [State.setVs, show ¬(k ≤ r.toNat ∧ r.toNat < k) by omega]
  | cons b bs ih =>
    simp only [List.length_cons] at h
    rw [State.setVs, ih (s.setV (BitVec.ofNat 4 k) b) (k + 1) (by omega)]
    simp only [List.length_cons]
    by_cases h1 : r.toNat = k
    · have hk : r = BitVec.ofNat 4 k := by rw [← h1]; simp
      rw [dif_neg (by omega), dif_pos (by omega), State.getV_setV, if_pos hk]
      simp [h1]
    · have hk : r ≠ BitVec.ofNat 4 k := by
        rintro rfl
        simp only [BitVec.toNat_ofNat] at h1
        omega
      rw [State.getV_setV, if_neg hk]
      by_cases h2 : k ≤ r.toNat ∧ r.toNat < k + (bs.length + 1)
      · rw [dif_pos (by omega), dif_pos h2, List.getElem_cons, dif_neg (by omega)]
        simp only [Nat.sub_sub]
      · rw [dif_neg (by omega), dif_neg h2]

/-- `setVs` changes nothing but the general registers. -/
theorem State.setVs_eq (s : State) (k : Nat) (bs : List Byte) : s.setVs k bs = { s with v := (s.setVs k bs).v } := by
  induction bs generalizing s k with
  | nil => rfl
  | cons b bs ih =>
    rw [State.setVs, ih]
    rfl

/-! ## Key latches -/

theorem State.keyDown_setKey (s : State) (k : Nibble) (p : Bool) (j : Nibble) :
    (s.setKey k p).keyDown j = if j = k then p else s.keyDown j := by
  simp only [State.keyDown, State.setKey, Vector.getElem_set, BitVec.toNat_inj, eq_comm]

/-! ## Framebuffer -/

theorem Framebuffer.pixel_toggle (fb : Framebuffer) (x : Fin 64) (y : Fin 32) (px : Fin 64) (py : Fin 32) :
    (fb.toggle x y).pixel px py = if px = x ∧ py = y then !fb.pixel px py else fb.pixel px py := by
  simp only [Framebuffer.pixel, Framebuffer.toggle, Fin.getElem_fin, Vector.getElem_set, Fin.ext_iff]
  by_cases hy : (y : Nat) = py
  · by_cases hx : (x : Nat) = px
    · simp [hy, hx]
    · simp [hy, hx, Ne.symm hx]
  · simp [hy, Ne.symm hy]

@[simp] theorem Framebuffer.pixel_clear (x : Fin 64) (y : Fin 32) : Framebuffer.clear.pixel x y = false := by
  simp [Framebuffer.pixel, Framebuffer.clear]

/-- Framebuffers with the same pixels are equal. -/
theorem Framebuffer.ext_pixel {f g : Framebuffer} (h : ∀ x y, f.pixel x y = g.pixel x y) : f = g := by
  apply Vector.ext
  intro y hy
  apply Vector.ext
  intro x hx
  exact h ⟨x, hx⟩ ⟨y, hy⟩

/-! ## Call stack -/

/-- Push: none exactly when SP = 16 (R30). -/
theorem State.push_none (s : State) (w : Word) (h : s.sp.val = 16) : s.push w = none := by
  simp [State.push, h]

theorem State.push_some (s : State) (w : Word) (h : s.sp.val < 16) :
    s.push w = some { s with sp := ⟨s.sp.val + 1, by omega⟩, stack := s.stack.set s.sp.val w h } := by
  simp [State.push, h]

/-- Pop: none exactly when SP = 0 (R30). -/
theorem State.pop_none (s : State) (h : s.sp.val = 0) : s.pop = none := by
  simp [State.pop, h]

theorem State.pop_some (s : State) (h : 0 < s.sp.val) :
    s.pop = some (s.stack[s.sp.val - 1]'(by omega), { s with sp := ⟨s.sp.val - 1, by omega⟩ }) := by
  simp [State.pop, h]

end Sys2Proof.Machine
end

