-- ==== Sys2Proof/Laws/Operands.lean ====
section
/-! SUPPORT. What the operand and flag computations give, as numbers (41_alu.md R142, 42_index_memory.md R161 to R164). -/

namespace Sys2Proof.Machine

@[simp] theorem addressOperand_toNat (nnn : Addr12) : (addressOperand nnn).toNat = nnn.toNat := by
  have := nnn.isLt
  simp only [addressOperand, BitVec.toNat_ofNat]
  omega

/-- The sum is at most 0x10FE, so it is not reduced (R108). -/
@[simp] theorem jumpV0Target_toNat (nnn : Addr12) (v0 : Byte) : (jumpV0Target nnn v0).toNat = nnn.toNat + v0.toNat := by
  have := nnn.isLt
  have := v0.isLt
  simp only [jumpV0Target, BitVec.toNat_ofNat]
  omega

@[simp] theorem addByte_toNat (a b : Byte) : (addByte a b).toNat = (a.toNat + b.toNat) % 256 := by
  simp [addByte]

@[simp] theorem subByte_toNat (a b : Byte) : ((subByte a b).toNat : Int) = ((a.toNat : Int) - b.toNat) % 256 := by
  simp [subByte, BitVec.toNat_ofInt]
  omega

@[simp] theorem shiftRightByte_toNat (a : Byte) : (shiftRightByte a).toNat = a.toNat / 2 := by
  simp [shiftRightByte, Nat.shiftRight_eq_div_pow]

@[simp] theorem shiftLeftByte_toNat (a : Byte) : (shiftLeftByte a).toNat = a.toNat * 2 % 256 := by
  simp [shiftLeftByte, Nat.shiftLeft_eq]

@[simp] theorem addIndex_toNat (i : Word) (vx : Byte) : (addIndex i vx).toNat = (i.toNat + vx.toNat) % 65536 := by
  simp [addIndex]

/-- The product is at most 1275, so it is not reduced (R162). -/
@[simp] theorem glyphAddress_toNat (vx : Byte) : (glyphAddress vx).toNat = 5 * vx.toNat := by
  have := vx.isLt
  simp only [glyphAddress, BitVec.toNat_ofNat]
  omega

@[simp] theorem boolByte_toNat (c : Bool) : (boolByte c).toNat = if c then 1 else 0 := by
  cases c <;> rfl

@[simp] theorem carryFlag_toNat (a b : Byte) :
    (carryFlag a b).toNat = if a.toNat + b.toNat > 255 then 1 else 0 := by
  simp [carryFlag]

@[simp] theorem noBorrowFlag_toNat (a b : Byte) :
    (noBorrowFlag a b).toNat = if a.toNat < b.toNat then 0 else 1 := by
  simp only [noBorrowFlag, boolByte_toNat, decide_eq_true_eq, ge_iff_le, ← Nat.not_lt]
  split <;> simp_all

@[simp] theorem lowBitFlag_toNat (a : Byte) : (lowBitFlag a).toNat = a.toNat % 2 := by
  simp [lowBitFlag]

@[simp] theorem highBitFlag_toNat (a : Byte) : (highBitFlag a).toNat = a.toNat / 128 := by
  simp [highBitFlag, Nat.shiftRight_eq_div_pow]

/-- Every flag is 0 or 1. -/
theorem eq_zero_or_one_of_toNat_lt {f : Byte} (h : f.toNat < 2) : f = 0 ∨ f = 1 := by
  rcases Nat.lt_succ_iff_lt_or_eq.mp h with h | h
  · left; apply BitVec.eq_of_toNat_eq; simp; omega
  · right; apply BitVec.eq_of_toNat_eq; simp [h]

@[simp] theorem bcdDigits_length (vx : Byte) : (bcdDigits vx).length = 3 := rfl

@[simp] theorem State.regsUpTo_length (s : State) (x : Nibble) : (s.regsUpTo x).length = x.toNat + 1 := by
  simp [State.regsUpTo]

theorem State.regsUpTo_getElem (s : State) (x : Nibble) (k : Nat) (h : k < (s.regsUpTo x).length) :
    (s.regsUpTo x)[k] = s.getV (BitVec.ofNat 4 k) := by
  simp [State.regsUpTo]

theorem keyOperand_none {vx : Byte} (h : vx.toNat > 0xF) : keyOperand vx = none := by
  simp [keyOperand]; omega

theorem keyOperand_some {vx : Byte} (h : ¬ vx.toNat > 0xF) : keyOperand vx = some (BitVec.ofNat 4 vx.toNat) := by
  simp [keyOperand]; omega

/-- The scan of the latches in ascending order (44_input_timers.md R193). -/
theorem State.lowestKey_none (s : State) : s.lowestKey = none ↔ ∀ k : Nibble, s.keyDown k = false := by
  simp only [State.lowestKey, List.find?_eq_none, List.mem_map, List.mem_range, Bool.not_eq_true,
    forall_exists_index, and_imp]
  constructor
  · intro h k
    exact h k k.toNat k.isLt (by simp)
  · intro h k _ _ _
    exact h k

theorem State.lowestKey_some (s : State) (k : Nibble) :
    s.lowestKey = some k ↔ s.keyDown k = true ∧ ∀ j : Nibble, j.toNat < k.toNat → s.keyDown j = false := by
  have key : ∀ k : Nibble, s.lowestKey = some k →
      s.keyDown k = true ∧ ∀ j : Nibble, j.toNat < k.toNat → s.keyDown j = false := by
    intro k hk
    simp only [State.lowestKey, List.find?_eq_some_iff_getElem, List.length_map, List.length_range,
      List.getElem_map, List.getElem_range, Bool.not_eq_eq_eq_not, Bool.not_true] at hk
    obtain ⟨hd, i, hi, rfl, hlt⟩ := hk
    refine ⟨hd, fun j hj => ?_⟩
    have := hlt j.toNat (by simp only [BitVec.toNat_ofNat] at hj; omega)
    simpa using this
  refine ⟨key k, fun ⟨h1, h2⟩ => ?_⟩
  cases hs : s.lowestKey with
  | none => simp [(State.lowestKey_none s).mp hs k] at h1
  | some j =>
    obtain ⟨h3, h4⟩ := key j hs
    have h5 : ¬ j.toNat < k.toNat := fun h => by simp [h2 j h] at h3
    have h6 : ¬ k.toNat < j.toNat := fun h => by simp [h4 k h] at h1
    rw [BitVec.eq_of_toNat_eq (x := j) (y := k) (by omega)]

@[simp] theorem spriteColumn_val (vx : Byte) (c : Nat) : (spriteColumn vx c).val = (vx.toNat + c) % 64 := rfl

@[simp] theorem spriteRow_val (vy : Byte) (r : Nat) : (spriteRow vy r).val = (vy.toNat + r) % 32 := rfl

end Sys2Proof.Machine
end

