-- ==== Sys2Proof/Laws/Graphics.lean ====
section
/-! SUPPORT. What drawing does (43_graphics.md R181, R184): within one sprite no pixel is toggled twice, so the result is
the old framebuffer XOR the set bits, and the collision is a set bit on a pixel that was on. -/

namespace Sys2Proof.Machine

theorem spriteColumn_inj (vx : Byte) {c d : Nat} (hc : c < 8) (hd : d < 8)
    (h : spriteColumn vx c = spriteColumn vx d) : c = d := by
  have := congrArg Fin.val h
  simp only [spriteColumn_val] at this
  omega

theorem spriteRow_inj (vy : Byte) {r q : Nat} (h1 : r < q + 32) (h2 : q < r + 32)
    (h : spriteRow vy r = spriteRow vy q) : r = q := by
  have := congrArg Fin.val h
  simp only [spriteRow_val] at this
  omega

/-- The first `n` columns of a row set the pixel (px, y). -/
def RowSets (vx : Byte) (b : Byte) (n : Nat) (px : Fin 64) : Prop :=
  ∃ c < n, spriteBit b c = true ∧ px = spriteColumn vx c

theorem rowSets_succ (vx b : Byte) (n : Nat) (px : Fin 64) :
    RowSets vx b (n + 1) px ↔ RowSets vx b n px ∨ spriteBit b n = true ∧ px = spriteColumn vx n := by
  simp only [RowSets, Nat.lt_succ_iff_lt_or_eq, or_and_right, exists_or, exists_eq_left]

/-- The drawing after the first `n` columns of a row. -/
def drawColumns (vx : Byte) (y : Fin 32) (b : Byte) (n : Nat) (d : Drawing) : Drawing :=
  (List.range n).foldl (fun d c => drawColumn vx y b c d) d

theorem drawColumns_succ (vx : Byte) (y : Fin 32) (b : Byte) (n : Nat) (d : Drawing) :
    drawColumns vx y b (n + 1) d = drawColumn vx y b n (drawColumns vx y b n d) := by
  simp [drawColumns, List.range_succ]

/-- The pixels and the collision after the first `n` columns. -/
theorem drawColumns_spec (vx : Byte) (y : Fin 32) (b : Byte) (n : Nat) (hn : n ≤ 8) (d : Drawing) :
    (∀ px py, (py = y ∧ RowSets vx b n px → (drawColumns vx y b n d).1.pixel px py = !d.1.pixel px py) ∧
      (¬(py = y ∧ RowSets vx b n px) → (drawColumns vx y b n d).1.pixel px py = d.1.pixel px py)) ∧
    ((drawColumns vx y b n d).2 = true ↔ d.2 = true ∨ ∃ px, RowSets vx b n px ∧ d.1.pixel px y = true) := by
  induction n with
  | zero => simp [drawColumns, RowSets]
  | succ n ih =>
    obtain ⟨ihp, ihc⟩ := ih (by omega)
    have fresh : ¬ RowSets vx b n (spriteColumn vx n) := by
      rintro ⟨c, hc, -, e⟩
      have := spriteColumn_inj vx (by omega) (by omega) e
      omega
    rw [drawColumns_succ, drawColumn]
    by_cases hb : spriteBit b n = true
    · simp only [hb, if_true, drawPixel, Framebuffer.pixel_toggle, rowSets_succ, true_and]
      refine ⟨fun px py => ?_, ?_⟩
      · by_cases hn' : px = spriteColumn vx n ∧ py = y
        · obtain ⟨rfl, rfl⟩ := hn'
          have := (ihp (spriteColumn vx n) py).2 (by simp [fresh])
          simp [this]
        · rw [if_neg hn']
          have hiff : (py = y ∧ (RowSets vx b n px ∨ px = spriteColumn vx n)) ↔ py = y ∧ RowSets vx b n px := by
            constructor
            · rintro ⟨h1, h2 | h2⟩
              · exact ⟨h1, h2⟩
              · exact absurd ⟨h2, h1⟩ hn'
            · rintro ⟨h1, h2⟩
              exact ⟨h1, Or.inl h2⟩
          rw [hiff]
          exact ihp px py
      · have := (ihp (spriteColumn vx n) y).2 (by simp [fresh])
        rw [Bool.or_eq_true, ihc, this, or_assoc]
        refine or_congr_right ?_
        constructor
        · rintro (⟨px, h1, h2⟩ | h)
          · exact ⟨px, Or.inl h1, h2⟩
          · exact ⟨_, Or.inr rfl, h⟩
        · rintro ⟨px, h1 | rfl, h2⟩
          · exact Or.inl ⟨px, h1, h2⟩
          · exact Or.inr h2
    · simp only [hb, Bool.false_eq_true, if_false, rowSets_succ, false_and, or_false]
      exact ⟨ihp, ihc⟩

/-- The rows `r`, `r + 1`, … of a sprite set the pixel (px, py). -/
def RowsSet (vx vy : Byte) (r : Nat) (bs : List Byte) (px : Fin 64) (py : Fin 32) : Prop :=
  ∃ k, ∃ h : k < bs.length, py = spriteRow vy (r + k) ∧ RowSets vx bs[k] 8 px

theorem rowsSet_cons (vx vy : Byte) (r : Nat) (b : Byte) (bs : List Byte) (px : Fin 64) (py : Fin 32) :
    RowsSet vx vy r (b :: bs) px py ↔
      (py = spriteRow vy r ∧ RowSets vx b 8 px) ∨ RowsSet vx vy (r + 1) bs px py := by
  constructor
  · rintro ⟨k, hk, hy, hx⟩
    cases k with
    | zero => exact Or.inl ⟨hy, hx⟩
    | succ k => exact Or.inr ⟨k, by simpa using hk, by rw [hy]; congr 1; omega, hx⟩
  · rintro (⟨hy, hx⟩ | ⟨k, hk, hy, hx⟩)
    · exact ⟨0, by simp, hy, hx⟩
    · exact ⟨k + 1, by simpa using hk, by rw [hy]; congr 1; omega, hx⟩

/-- Drawing at most 32 rows: the set bits are toggled once each, and `collided` says whether one was on. -/
theorem drawRows_spec (vx vy : Byte) (r : Nat) (bs : List Byte) (hl : bs.length ≤ 32) (d : Drawing) :
    (∀ px py, (RowsSet vx vy r bs px py → (drawRows vx vy r bs d).1.pixel px py = !d.1.pixel px py) ∧
      (¬ RowsSet vx vy r bs px py → (drawRows vx vy r bs d).1.pixel px py = d.1.pixel px py)) ∧
    ((drawRows vx vy r bs d).2 = true ↔
      d.2 = true ∨ ∃ px py, RowsSet vx vy r bs px py ∧ d.1.pixel px py = true) := by
  induction bs generalizing r d with
  | nil => simp [drawRows, RowsSet]
  | cons b bs ih =>
    simp only [List.length_cons] at hl
    obtain ⟨rp, rc⟩ := drawColumns_spec vx (spriteRow vy r) b 8 (by omega) d
    obtain ⟨ip, ic⟩ := ih (r + 1) (by omega) (drawColumns vx (spriteRow vy r) b 8 d)
    have fresh : ∀ px, ¬ RowsSet vx vy (r + 1) bs px (spriteRow vy r) := by
      rintro px ⟨k, hk, e, -⟩
      have := spriteRow_inj vy (by omega) (by omega) e
      omega
    have step : drawRows vx vy r (b :: bs) d = drawRows vx vy (r + 1) bs (drawColumns vx (spriteRow vy r) b 8 d) := rfl
    rw [step]
    refine ⟨fun px py => ?_, ?_⟩
    · rw [rowsSet_cons]
      by_cases h1 : py = spriteRow vy r ∧ RowSets vx b 8 px
      · have h2 : ¬ RowsSet vx vy (r + 1) bs px py := by rw [h1.1]; exact fresh px
        exact ⟨fun _ => by rw [(ip px py).2 h2, (rp px py).1 h1], fun h => absurd (Or.inl h1) h⟩
      · simp only [h1, false_or]
        rw [← (rp px py).2 h1]
        exact ip px py
    · rw [ic, rc, or_assoc]
      refine or_congr_right ?_
      constructor
      · rintro (⟨px, h1, h2⟩ | ⟨px, py, h1, h2⟩)
        · exact ⟨px, _, (rowsSet_cons ..).mpr (Or.inl ⟨rfl, h1⟩), h2⟩
        · have hy : py ≠ spriteRow vy r := by rintro rfl; exact fresh px h1
          exact ⟨px, py, (rowsSet_cons ..).mpr (Or.inr h1), by rwa [(rp px py).2 (by simp [hy])] at h2⟩
      · rintro ⟨px, py, h, h2⟩
        rcases (rowsSet_cons ..).mp h with ⟨rfl, h1⟩ | h1
        · exact Or.inl ⟨px, h1, h2⟩
        · have hy : py ≠ spriteRow vy r := by rintro rfl; exact fresh px h1
          exact Or.inr ⟨px, py, h1, by rwa [(rp px py).2 (by simp [hy])]⟩

end Sys2Proof.Machine
end

