-- ==== Sys2Proof/Laws/Exec.lean ====
section
/-! SUPPORT. What the meanings that can raise an error do, on each path; what any instruction can do to the state; and
what fetch and STEP do. Later proofs cite these instead of unfolding the meanings. -/

namespace Sys2Proof.Machine

/-! ## Errors -/

/-- The codes tell the kinds apart (60_exceptions.md R211). -/
theorem ErrorKind.code_inj {k l : ErrorKind} : k.code = l.code ↔ k = l := by
  cases k <;> cases l <;> decide

@[simp] theorem Fault.code_decodeError (p w : Word) : (Fault.decodeError p w).code = 1 := rfl
@[simp] theorem Fault.code_memoryBounds (p : Word) (w : Option Word) (a : Nat) : (Fault.memoryBounds p w a).code = 2 := rfl
@[simp] theorem Fault.code_stackBounds (p w : Word) (o : StackOp) : (Fault.stackBounds p w o).code = 3 := rfl
@[simp] theorem Fault.code_keyIndex (p w : Word) (k : Byte) : (Fault.keyIndex p w k).code = 4 := rfl

/-! ## Call and return -/

theorem execCall_ok (s : State) (nnn : Addr12) (h : s.sp.val < 16) :
    execCall nnn s = .next { s with pc := addressOperand nnn, sp := ⟨s.sp.val + 1, by omega⟩,
                                    stack := s.stack.set s.sp.val s.pc h } := by
  rw [execCall, State.push_some s s.pc h]
  rfl

theorem execCall_error (s : State) (nnn : Addr12) (h : s.sp.val = 16) :
    execCall nnn s = .fault (.stackBounds (s.pc - 2) (encode (.call nnn)) .push) := by
  rw [execCall, State.push_none s s.pc h]
  rfl

theorem execRet_ok (s : State) (h : 0 < s.sp.val) :
    execRet s = .next { s with pc := s.stack[s.sp.val - 1]'(by omega), sp := ⟨s.sp.val - 1, by omega⟩ } := by
  rw [execRet, State.pop_some s h]
  rfl

theorem execRet_error (s : State) (h : s.sp.val = 0) :
    execRet s = .fault (.stackBounds (s.pc - 2) (encode .ret) .pop) := by
  rw [execRet, State.pop_none s h]
  rfl

/-! ## Accesses through I -/

/-- A store through I that fits writes the bytes there, in order, and nothing else. -/
theorem storeThroughIndex_ok (i : Instr) (bs : List Byte) (s : State) (h : bs = [] ∨ s.i.toNat + bs.length ≤ 0x1000) :
    ∃ m, storeThroughIndex i bs s = .next (s.setMem m) ∧ s.mem.writeBytes s.i.toNat bs = .ok m ∧
      (∀ k (hk : k < bs.length), m.get (s.i.toNat + k) = bs[k]) ∧
      (∀ a, a < s.i.toNat ∨ s.i.toNat + bs.length ≤ a → m.get a = s.mem.get a) ∧
      (s.mem.wf = true → m.wf = true) := by
  obtain ⟨m, hw, hrest⟩ := Memory.writeBytes_ok s.mem s.i.toNat bs h
  refine ⟨m, ?_, hw, hrest⟩
  simp only [storeThroughIndex, State.indexAddress, hw]

theorem storeThroughIndex_error (i : Instr) (bs : List Byte) (s : State) (hn : bs ≠ [])
    (h : 0x1000 < s.i.toNat + bs.length) :
    storeThroughIndex i bs s = .fault (.memoryBounds (s.pc - 2) (some (encode i)) (max s.i.toNat 0x1000)) := by
  simp only [storeThroughIndex, State.indexAddress, Memory.writeBytes_error s.mem s.i.toNat bs hn h]
  rfl

theorem execLdRegs_ok (s : State) (x : Nibble) (h : s.i.toNat + x.toNat ≤ 0xFFF) :
    execLdRegs x s = .next (s.setVs 0 ((List.range (x.toNat + 1)).map fun k => s.byte (s.i.toNat + k))) := by
  simp only [execLdRegs, State.indexAddress,
    Memory.readBytes_ok s.mem s.i.toNat (x.toNat + 1) (Or.inr (by omega))]
  rfl

theorem execLdRegs_error (s : State) (x : Nibble) (h : s.i.toNat + x.toNat > 0xFFF) :
    execLdRegs x s = .fault (.memoryBounds (s.pc - 2) (some (encode (.ldRegs x))) (max s.i.toNat 0x1000)) := by
  simp only [execLdRegs, State.indexAddress,
    Memory.readBytes_error s.mem s.i.toNat (x.toNat + 1) (by omega) (by omega)]
  rfl

/-- The rows of the sprite at I. -/
def State.spriteRows (s : State) (n : Nibble) : List Byte :=
  (List.range n.toNat).map fun k => s.byte (s.i.toNat + k)

theorem execDrw_ok (s : State) (x y n : Nibble) (h : n.toNat = 0 ∨ s.i.toNat + n.toNat ≤ 0x1000) :
    execDrw x y n s = .next ((s.setFb (drawRows (s.getV x) (s.getV y) 0 (s.spriteRows n) (s.fb, false)).1).setV regF
      (collisionFlag (drawRows (s.getV x) (s.getV y) 0 (s.spriteRows n) (s.fb, false)).2)) := by
  simp only [execDrw, State.indexAddress, Memory.readBytes_ok s.mem s.i.toNat n.toNat h]
  rfl

theorem execDrw_error (s : State) (x y n : Nibble) (hn : n.toNat ≠ 0) (h : 0x1000 < s.i.toNat + n.toNat) :
    execDrw x y n s = .fault (.memoryBounds (s.pc - 2) (some (encode (.drw x y n))) (max s.i.toNat 0x1000)) := by
  simp only [execDrw, State.indexAddress, Memory.readBytes_error s.mem s.i.toNat n.toNat hn h]
  rfl

/-! ## Key skips -/

theorem execSkp_ok (s : State) (x : Nibble) (h : ¬ (s.getV x).toNat > 0xF) :
    execSkp x s = .next (s.skipIf (s.keyDown (BitVec.ofNat 4 (s.getV x).toNat))) := by
  simp only [execSkp, keyOperand_some h]

theorem execSkp_error (s : State) (x : Nibble) (h : (s.getV x).toNat > 0xF) :
    execSkp x s = .fault (.keyIndex (s.pc - 2) (encode (.skp x)) (s.getV x)) := by
  simp only [execSkp, keyOperand_none h]
  rfl

theorem execSknp_ok (s : State) (x : Nibble) (h : ¬ (s.getV x).toNat > 0xF) :
    execSknp x s = .next (s.skipIf (!s.keyDown (BitVec.ofNat 4 (s.getV x).toNat))) := by
  simp only [execSknp, keyOperand_some h]

theorem execSknp_error (s : State) (x : Nibble) (h : (s.getV x).toNat > 0xF) :
    execSknp x s = .fault (.keyIndex (s.pc - 2) (encode (.sknp x)) (s.getV x)) := by
  simp only [execSknp, keyOperand_none h]
  rfl

/-! ## What an instruction can do to the state -/

/-- Every next state of every instruction has one of these forms. -/
theorem exec_next_cases (i : Instr) (s t : State) (h : exec i s = .next t) :
    (∃ v, t = { s with v := v }) ∨ (∃ w, t = s.setPc w) ∨
    (∃ w sp stack, t = { s with pc := w, sp := sp, stack := stack }) ∨ (∃ w, t = s.setI w) ∨
    (∃ bs m, s.mem.writeBytes s.i.toNat bs = .ok m ∧ t = s.setMem m) ∨ (∃ fb v, t = { s with fb := fb, v := v }) ∨
    (∃ b, t = s.setDt b) ∨ ∃ b, t = s.setSt b := by
  have skip : ∀ c, (.next (s.skipIf c) : Result) = .next t → ∃ w, t = s.setPc w := by
    intro c hc
    exact ⟨_, by rw [← Host.Outcome.next.inj hc, State.skipIf_eq]⟩
  have store : ∀ j bs, storeThroughIndex j bs s = .next t →
      ∃ bs m, s.mem.writeBytes s.i.toNat bs = .ok m ∧ t = s.setMem m := by
    intro j bs hs
    simp only [storeThroughIndex, State.indexAddress] at hs
    split at hs
    · rename_i m hm
      exact ⟨bs, m, hm, (Host.Outcome.next.inj hs).symm⟩
    · exact absurd hs (by simp [raiseMemoryBounds, raise])
  cases i with
  | nop => exact .inl ⟨s.v, (Host.Outcome.next.inj h).symm⟩
  | cls => exact .inr (.inr (.inr (.inr (.inr (.inl ⟨_, s.v, (Host.Outcome.next.inj h).symm⟩)))))
  | ret =>
    by_cases hs : s.sp.val = 0
    · exact absurd h (by simp [exec, execRet_error s hs])
    · simp only [exec, execRet_ok s (Nat.pos_of_ne_zero hs)] at h
      exact .inr (.inr (.inl ⟨_, _, s.stack, (Host.Outcome.next.inj h).symm⟩))
  | jp => exact .inr (.inl ⟨_, (Host.Outcome.next.inj h).symm⟩)
  | call nnn =>
    by_cases hs : s.sp.val < 16
    · simp only [exec, execCall_ok s nnn hs] at h
      exact .inr (.inr (.inl ⟨_, _, _, (Host.Outcome.next.inj h).symm⟩))
    · exact absurd h (by simp [exec, execCall_error s nnn (by omega)])
  | seImm | sneImm | seReg | sneReg => exact .inr (.inl (skip _ h))
  | ldImm | addImm | ldReg | orReg | andReg | xorReg | rnd | ldVxDt =>
    exact .inl ⟨_, (Host.Outcome.next.inj h).symm⟩
  | addReg | subReg | shr | subnReg | shl => exact .inl ⟨_, (Host.Outcome.next.inj h).symm⟩
  | ldI | addI | ldF => exact .inr (.inr (.inr (.inl ⟨_, (Host.Outcome.next.inj h).symm⟩)))
  | jpV0 => exact .inr (.inl ⟨_, (Host.Outcome.next.inj h).symm⟩)
  | drw x y n =>
    simp only [exec, execDrw] at h
    split at h
    · exact .inr (.inr (.inr (.inr (.inr (.inl ⟨_, _, (Host.Outcome.next.inj h).symm⟩)))))
    · exact absurd h (by simp [raiseMemoryBounds, raise])
  | skp x =>
    by_cases hk : (s.getV x).toNat > 0xF
    · exact absurd h (by simp [exec, execSkp_error s x hk])
    · exact .inr (.inl (skip _ (by rw [← execSkp_ok s x hk]; exact h)))
  | sknp x =>
    by_cases hk : (s.getV x).toNat > 0xF
    · exact absurd h (by simp [exec, execSknp_error s x hk])
    · exact .inr (.inl (skip _ (by rw [← execSknp_ok s x hk]; exact h)))
  | ldVxK x =>
    simp only [exec, execLdVxK] at h
    split at h
    · exact .inl ⟨_, (Host.Outcome.next.inj h).symm⟩
    · exact .inr (.inl ⟨_, (Host.Outcome.next.inj h).symm⟩)
  | ldDtVx => exact .inr (.inr (.inr (.inr (.inr (.inr (.inl ⟨_, (Host.Outcome.next.inj h).symm⟩))))))
  | ldStVx => exact .inr (.inr (.inr (.inr (.inr (.inr (.inr ⟨_, (Host.Outcome.next.inj h).symm⟩))))))
  | ldB | stRegs => exact .inr (.inr (.inr (.inr (.inl (store _ _ h)))))
  | ldRegs x =>
    simp only [exec, execLdRegs] at h
    split at h
    · exact .inl ⟨_, by rw [← Host.Outcome.next.inj h, State.setVs_eq]⟩
    · exact absurd h (by simp [raiseMemoryBounds, raise])

/-- No instruction touches the random source's inputs or the key latches. -/
theorem exec_keeps_inputs (i : Instr) (s t : State) (h : exec i s = .next t) :
    t.key = s.key ∧ t.rnd = s.rnd ∧ t.rndInputs = s.rndInputs ∧ t.stepCount = s.stepCount := by
  rcases exec_next_cases i s t h with ⟨v, rfl⟩ | ⟨w, rfl⟩ | ⟨w, sp, st, rfl⟩ | ⟨w, rfl⟩ | ⟨bs, m, -, rfl⟩ |
    ⟨fb, v, rfl⟩ | ⟨b, rfl⟩ | ⟨b, rfl⟩ <;> simp

/-! ## Fetch and STEP -/

theorem fetch_ok (s : State) (h : s.pc.toNat ≤ 0xFFE) :
    fetch s = .ok (wordOfBytes (s.byte s.pc.toNat) (s.byte (s.pc.toNat + 1))) := by
  simp only [fetch, Memory.memRead_ok (m := s.mem) (show s.pc.toNat < 0x1000 by omega),
    Memory.memRead_ok (m := s.mem) (show s.pc.toNat + 1 < 0x1000 by omega)]
  rfl

theorem fetch_error (s : State) (h : s.pc.toNat ≥ 0xFFF) :
    fetch s = .error (.memoryBounds s.pc none (max s.pc.toNat 0x1000)) := by
  by_cases h' : s.pc.toNat < 0x1000
  · have e : s.pc.toNat = 0xFFF := by omega
    simp only [fetch, e]
    rfl
  · simp only [fetch, Memory.memRead_error (m := s.mem) h', show max s.pc.toNat 0x1000 = s.pc.toNat by omega]

/-- Every way a STEP can go (30_encoding.md R81, 60_exceptions.md R217). -/
theorem stepWith_cases (r : Byte) (s : State) :
    (s.pc.toNat ≥ 0xFFF ∧ stepWith r s = .fault (.memoryBounds s.pc none (max s.pc.toNat 0x1000))) ∨
    (s.pc.toNat ≤ 0xFFE ∧ ∃ op, fetch s = .ok op ∧
      ((∃ e, decodeWord op = .error e ∧ stepWith r s = .fault (.decodeError s.pc op)) ∨
       ∃ i, decodeWord op = .ok i ∧ stepWith r s = exec i (s.fetched r))) := by
  by_cases h : s.pc.toNat ≥ 0xFFF
  · exact .inl ⟨h, by simp only [stepWith, fetch_error s h]; rfl⟩
  · refine .inr ⟨by omega, _, fetch_ok s (by omega), ?_⟩
    simp only [stepWith, fetch_ok s (show s.pc.toNat ≤ 0xFFE by omega)]
    split
    · exact .inl ⟨_, ‹_›, rfl⟩
    · exact .inr ⟨_, ‹_›, rfl⟩

/-- A STEP that answers Ok fetched, decoded and ran an instruction. -/
theorem stepWith_next (r : Byte) (s t : State) (h : stepWith r s = .next t) :
    s.pc.toNat ≤ 0xFFE ∧ ∃ op i, fetch s = .ok op ∧ decodeWord op = .ok i ∧ exec i (s.fetched r) = .next t := by
  rcases stepWith_cases r s with ⟨-, e⟩ | ⟨hp, op, hf, ⟨_, -, e⟩ | ⟨i, hd, e⟩⟩
  · exact absurd (e.symm.trans h) (by simp)
  · exact absurd (e.symm.trans h) (by simp)
  · exact ⟨hp, op, i, hf, hd, e.symm.trans h⟩

end Sys2Proof.Machine
end

