-- ==== Sys2Proof/Laws/Host.lean ====
section
/-! SUPPORT. What the host's transactions do (60_exceptions.md R223, R232, R235, 70_reset_and_hazards.md R251), and that
`withFetchWord` places the word the next STEP fetches. -/

namespace Sys2Proof.Machine

@[simp] theorem countDown_toNat (b : Byte) : (countDown b).toNat = b.toNat - 1 := by
  have := b.isLt
  simp only [countDown]
  split
  · simp only [BitVec.toNat_ofNat]
    omega
  · omega

/-- The memory of a font: its bytes at 0x000 to 0x04F, zero elsewhere, canonical. -/
theorem Memory.ofFont_spec (font : Config.FontRom) :
    (∀ (a : Nat) (h : a < 80), (Memory.ofFont font).get a = font[a]) ∧
    (∀ a, 80 ≤ a → (Memory.ofFont font).get a = 0) ∧ (Memory.ofFont font).wf = true := by
  obtain ⟨m, hw, hin, hout, hwf⟩ := Memory.writeBytes_ok [] 0 font.toList (Or.inr (by simp))
  have e : Memory.ofFont font = m := by simp only [Memory.ofFont, hw]
  rw [e]
  refine ⟨fun a h => ?_, fun a h => ?_, hwf Memory.wf_nil⟩
  · have := hin a (by simpa using h)
    simpa using this
  · rw [hout a (Or.inr (by simpa using h))]
    simp [Memory.get, Config.resetByte, show ¬ a < 80 by omega]

theorem State.load_ok (s : State) (bs : List Byte) (h : bs.length ≤ 3584) :
    ∃ m, s.load bs = .ok (s.setMem m) ∧ (∀ k (hk : k < bs.length), m.get (0x200 + k) = bs[k]) ∧
      (∀ a, a < 0x200 ∨ 0x200 + bs.length ≤ a → m.get a = s.mem.get a) ∧ (s.mem.wf = true → m.wf = true) := by
  obtain ⟨m, hw, hrest⟩ := Memory.writeBytes_ok s.mem 0x200 bs (Or.inr (by omega))
  refine ⟨m, ?_, hrest⟩
  simp only [State.load, Config.progMax, Config.progBase, show ¬ bs.length > 3584 by omega, if_false, hw]

theorem State.load_error (s : State) (bs : List Byte) (h : bs.length > 3584) : s.load bs = .error 0x1000 := by
  simp [State.load, Config.progMax, h]

/-- Every transaction that answers an error, with what it records: a STEP that faulted, or a LOAD that is too long. -/
theorem errorInfo_cases {font : Config.FontRom} {t : Transaction} {s : State} {info : ErrorInfo}
    (h : (transact font t s).2.errorInfo = some info) :
    (∃ r f, t = .step r ∧ stepWith r s = .fault f ∧ info = f.info) ∨
    ∃ bs, t = .load bs ∧ bs.length > 3584 ∧ info = loadErrorInfo 0x1000 := by
  cases t with
  | create | reset | setKey | tick | readFb | readSt | readDt => exact absurd h (by simp [transact, Response.errorInfo])
  | step r =>
    simp only [transact, transactStep] at h
    split at h
    · exact absurd h (by simp [Response.errorInfo])
    · exact .inl ⟨r, _, rfl, ‹_›, (Option.some.inj h).symm⟩
    · exact absurd h (by simp [Response.errorInfo])
  | load bs =>
    by_cases hl : bs.length > 3584
    · simp only [transact, State.load_error s bs hl] at h
      exact .inr ⟨bs, rfl, hl, (Option.some.inj h).symm⟩
    · obtain ⟨m, hm, -⟩ := State.load_ok s bs (by omega)
      exact absurd h (by simp [transact, hm, Response.errorInfo])

/-- Stores of the host change memory alone. -/
theorem State.storeBytes_eq (s : State) (a : Nat) (bs : List Byte) :
    s.storeBytes a bs = s.setMem (s.storeBytes a bs).mem := by
  induction bs generalizing s a with
  | nil => rfl
  | cons b bs ih =>
    rw [State.storeBytes]
    split
    · rw [ih]; rfl
    · exact ih s (a + 1)

/-- The word placed by `withFetchWord` is the one the next STEP fetches. -/
theorem fetch_withFetchWord (s : State) (nbits w : Nat) (h : s.pc.toNat ≤ 0xFFE) :
    fetch (s.withFetchWord nbits w) = .ok (tableWord nbits w) := by
  obtain ⟨hi, lo, hb, hw⟩ := bytesOfWord_eq (tableWord nbits w)
  have e : s.withFetchWord nbits w = s.setMem ((s.mem.put s.pc.toNat hi).put (s.pc.toNat + 1) lo) := by
    simp [State.withFetchWord, hb, State.storeBytes, Config.memSize, show s.pc.toNat < 4096 by omega,
      show s.pc.toNat + 1 < 4096 by omega]
    rfl
  rw [e, fetch_ok (s.setMem ((s.mem.put s.pc.toNat hi).put (s.pc.toNat + 1) lo)) h]
  simp only [State.setMem_pc, State.byte, State.setMem_mem, Memory.get_put]
  simp [hw]

end Sys2Proof.Machine
end

