-- ==== Sys2Proof/Laws/PerInstr.lean ====
section
/-! SUPPORT. One lemma per instruction: it is well-formed, and its encoding matches the row of the opcode table that
bears its name (spec/opcode_table.json). -/

namespace Sys2Proof.Laws.EncodeMatchesRow

/-- The instruction is well-formed and its word matches its own row. -/
def Statement (i : Instr) : Prop :=
  WellFormed i = true ∧ ∃ row ∈ opcodeTable, row.mnemonic = i.mnemonic ∧ row.matches (encode i) = true

/-- A row of the table with the instruction's name whose mask leaves its pattern of the word. -/
theorem of_row {i : Instr} (hw : WellFormed i = true) (row : OpcodeRow) (hr : row ∈ opcodeTable)
    (hm : row.mnemonic = i.mnemonic) (he : encode i &&& row.mask = row.pattern) : Statement i :=
  ⟨hw, row, hr, hm, by simp [OpcodeRow.matches, he]⟩

theorem wf_nibble (x : Nibble) : x.toNat < 16 := x.isLt
theorem wf_byte (nn : Byte) : nn.toNat < 256 := nn.isLt
theorem wf_addr (nnn : Addr12) : nnn.toNat < 4096 := nnn.isLt

/-- Every instruction is well-formed: its operand types have the widths of their fields (30_encoding.md R74). -/
theorem wellFormed (i : Instr) : WellFormed i = true := by
  cases i <;> simp [WellFormed, Instr.operands, Operand.fits, wf_nibble, wf_byte, wf_addr]

theorem nop : Statement .nop :=
  of_row (wellFormed _) ⟨"NOP", 0x0000, 0xFFFF⟩ (by decide) rfl (by decide)

theorem cls : Statement .cls :=
  of_row (wellFormed _) ⟨"CLS", 0x00E0, 0xFFFF⟩ (by decide) rfl (by decide)

theorem ret : Statement .ret :=
  of_row (wellFormed _) ⟨"RET", 0x00EE, 0xFFFF⟩ (by decide) rfl (by decide)

theorem jp (nnn : Addr12) : Statement (.jp nnn) :=
  of_row (wellFormed _) ⟨"JP", 0x1000, 0xF000⟩ (by decide) rfl (layoutA_mask _ _)

theorem call (nnn : Addr12) : Statement (.call nnn) :=
  of_row (wellFormed _) ⟨"CALL", 0x2000, 0xF000⟩ (by decide) rfl (layoutA_mask _ _)

theorem seImm (x : Nibble) (nn : Byte) : Statement (.seImm x nn) :=
  of_row (wellFormed _) ⟨"SE_IMM", 0x3000, 0xF000⟩ (by decide) rfl (layoutXK_mask _ _ _)

theorem sneImm (x : Nibble) (nn : Byte) : Statement (.sneImm x nn) :=
  of_row (wellFormed _) ⟨"SNE_IMM", 0x4000, 0xF000⟩ (by decide) rfl (layoutXK_mask _ _ _)

theorem seReg (x y : Nibble) : Statement (.seReg x y) :=
  of_row (wellFormed _) ⟨"SE_REG", 0x5000, 0xF00F⟩ (by decide) rfl (layoutXY_mask _ _ _ _)

theorem ldImm (x : Nibble) (nn : Byte) : Statement (.ldImm x nn) :=
  of_row (wellFormed _) ⟨"LD_IMM", 0x6000, 0xF000⟩ (by decide) rfl (layoutXK_mask _ _ _)

theorem addImm (x : Nibble) (nn : Byte) : Statement (.addImm x nn) :=
  of_row (wellFormed _) ⟨"ADD_IMM", 0x7000, 0xF000⟩ (by decide) rfl (layoutXK_mask _ _ _)

theorem ldReg (x y : Nibble) : Statement (.ldReg x y) :=
  of_row (wellFormed _) ⟨"LD_REG", 0x8000, 0xF00F⟩ (by decide) rfl (layoutXY_mask _ _ _ _)

theorem orReg (x y : Nibble) : Statement (.orReg x y) :=
  of_row (wellFormed _) ⟨"OR", 0x8001, 0xF00F⟩ (by decide) rfl (layoutXY_mask _ _ _ _)

theorem andReg (x y : Nibble) : Statement (.andReg x y) :=
  of_row (wellFormed _) ⟨"AND", 0x8002, 0xF00F⟩ (by decide) rfl (layoutXY_mask _ _ _ _)

theorem xorReg (x y : Nibble) : Statement (.xorReg x y) :=
  of_row (wellFormed _) ⟨"XOR", 0x8003, 0xF00F⟩ (by decide) rfl (layoutXY_mask _ _ _ _)

theorem addReg (x y : Nibble) : Statement (.addReg x y) :=
  of_row (wellFormed _) ⟨"ADD_REG", 0x8004, 0xF00F⟩ (by decide) rfl (layoutXY_mask _ _ _ _)

theorem subReg (x y : Nibble) : Statement (.subReg x y) :=
  of_row (wellFormed _) ⟨"SUB", 0x8005, 0xF00F⟩ (by decide) rfl (layoutXY_mask _ _ _ _)

theorem shr (x y : Nibble) : Statement (.shr x y) :=
  of_row (wellFormed _) ⟨"SHR", 0x8006, 0xF00F⟩ (by decide) rfl (layoutXY_mask _ _ _ _)

theorem subnReg (x y : Nibble) : Statement (.subnReg x y) :=
  of_row (wellFormed _) ⟨"SUBN", 0x8007, 0xF00F⟩ (by decide) rfl (layoutXY_mask _ _ _ _)

theorem shl (x y : Nibble) : Statement (.shl x y) :=
  of_row (wellFormed _) ⟨"SHL", 0x800E, 0xF00F⟩ (by decide) rfl (layoutXY_mask _ _ _ _)

theorem sneReg (x y : Nibble) : Statement (.sneReg x y) :=
  of_row (wellFormed _) ⟨"SNE_REG", 0x9000, 0xF00F⟩ (by decide) rfl (layoutXY_mask _ _ _ _)

theorem ldI (nnn : Addr12) : Statement (.ldI nnn) :=
  of_row (wellFormed _) ⟨"LD_I", 0xA000, 0xF000⟩ (by decide) rfl (layoutA_mask _ _)

theorem jpV0 (nnn : Addr12) : Statement (.jpV0 nnn) :=
  of_row (wellFormed _) ⟨"JP_V0", 0xB000, 0xF000⟩ (by decide) rfl (layoutA_mask _ _)

theorem rnd (x : Nibble) (nn : Byte) : Statement (.rnd x nn) :=
  of_row (wellFormed _) ⟨"RND", 0xC000, 0xF000⟩ (by decide) rfl (layoutXK_mask _ _ _)

theorem drw (x y n : Nibble) : Statement (.drw x y n) :=
  of_row (wellFormed _) ⟨"DRW", 0xD000, 0xF000⟩ (by decide) rfl (layoutXYN_mask _ _ _ _)

theorem skp (x : Nibble) : Statement (.skp x) :=
  of_row (wellFormed _) ⟨"SKP", 0xE09E, 0xF0FF⟩ (by decide) rfl (layoutXS_mask _ _ _)

theorem sknp (x : Nibble) : Statement (.sknp x) :=
  of_row (wellFormed _) ⟨"SKNP", 0xE0A1, 0xF0FF⟩ (by decide) rfl (layoutXS_mask _ _ _)

theorem ldVxDt (x : Nibble) : Statement (.ldVxDt x) :=
  of_row (wellFormed _) ⟨"LD_VX_DT", 0xF007, 0xF0FF⟩ (by decide) rfl (layoutXS_mask _ _ _)

theorem ldVxK (x : Nibble) : Statement (.ldVxK x) :=
  of_row (wellFormed _) ⟨"LD_VX_K", 0xF00A, 0xF0FF⟩ (by decide) rfl (layoutXS_mask _ _ _)

theorem ldDtVx (x : Nibble) : Statement (.ldDtVx x) :=
  of_row (wellFormed _) ⟨"LD_DT_VX", 0xF015, 0xF0FF⟩ (by decide) rfl (layoutXS_mask _ _ _)

theorem ldStVx (x : Nibble) : Statement (.ldStVx x) :=
  of_row (wellFormed _) ⟨"LD_ST_VX", 0xF018, 0xF0FF⟩ (by decide) rfl (layoutXS_mask _ _ _)

theorem addI (x : Nibble) : Statement (.addI x) :=
  of_row (wellFormed _) ⟨"ADD_I", 0xF01E, 0xF0FF⟩ (by decide) rfl (layoutXS_mask _ _ _)

theorem ldF (x : Nibble) : Statement (.ldF x) :=
  of_row (wellFormed _) ⟨"LD_F", 0xF029, 0xF0FF⟩ (by decide) rfl (layoutXS_mask _ _ _)

theorem ldB (x : Nibble) : Statement (.ldB x) :=
  of_row (wellFormed _) ⟨"LD_B", 0xF033, 0xF0FF⟩ (by decide) rfl (layoutXS_mask _ _ _)

theorem stRegs (x : Nibble) : Statement (.stRegs x) :=
  of_row (wellFormed _) ⟨"ST_REGS", 0xF055, 0xF0FF⟩ (by decide) rfl (layoutXS_mask _ _ _)

theorem ldRegs (x : Nibble) : Statement (.ldRegs x) :=
  of_row (wellFormed _) ⟨"LD_REGS", 0xF065, 0xF0FF⟩ (by decide) rfl (layoutXS_mask _ _ _)

end Sys2Proof.Laws.EncodeMatchesRow
end

