-- ==== Sys2Proof/Tests/Slice0.lean ====
section
/-! SUPPORT. Tests of one step each, with expected results from spec/95_test_vectors.md (the vector is named at each
test), and a witness for every obligation that has hypotheses. -/

namespace Sys2Proof.Tests

-- One thread for the whole file: its many small `decide` proofs otherwise run on more threads than memory allows.
set_option Elab.async false

open Sys2Proof Sys2Proof.Machine

/-! ## Helpers -/

/-- What a test reads from a next state. -/
def okPart {α : Type} (f : State → α) : Result → Option α
  | .next t => some (f t)
  | _ => none

/-- The error of a result. -/
def errPart : Result → Option Fault
  | .fault f => some f
  | _ => none

theorem next_of_okPart {r : Result} {p : State → Bool} (h : okPart p r = some true) : ∃ t, r = .next t ∧ p t = true := by
  cases r with
  | next t => exact ⟨t, rfl, Option.some.inj h⟩
  | fault => exact absurd h (by simp [okPart])
  | refused => exact absurd h (by simp [okPart])

theorem fault_of_errPart {r : Result} {f : Fault} (h : errPart r = some f) : r = .fault f := by
  cases r with
  | fault g => exact congrArg _ (Option.some.inj h)
  | next => exact absurd h (by simp [errPart])
  | refused => exact absurd h (by simp [errPart])

/-- The state after RESET with a word at 0x200. -/
def placed (w : Nat) : State := State.reset.withFetchWord 16 w

/-- The call stack with `n` entries in use, each `w`. -/
def withStack (n : Fin 17) (w : Word) (s : State) : State := { s with sp := n, stack := Vector.replicate 16 w }

/-- STEP with the random input 0. -/
def step0 (s : State) : Result := stepWith 0 s

/-! ## Well-formedness: a term each check refuses, and the widest it admits -/

theorem test_fits_register : Operand.fits (.register 16) = false ∧ Operand.fits (.register 15) = true := by decide
theorem test_fits_count : Operand.fits (.count 16) = false ∧ Operand.fits (.count 15) = true := by decide
theorem test_fits_byte : Operand.fits (.byte 256) = false ∧ Operand.fits (.byte 255) = true := by decide
theorem test_fits_address : Operand.fits (.address 4096) = false ∧ Operand.fits (.address 4095) = true := by decide
theorem test_wellFormed_drw : WellFormed (.drw 0xF 0xF 0xF) = true := by decide

/-! ## Decoding: one word of every row, written out from its pattern in spec/opcode_table.json -/

theorem test_decode_zero : decodeWord 0x0000#16 = .ok .nop ∧ decodeWord 0x00E0#16 = .ok .cls ∧
    decodeWord 0x00EE#16 = .ok .ret := by decide
theorem test_decode_jumps : decodeWord 0x1234#16 = .ok (.jp 0x234) ∧ decodeWord 0x2ABC#16 = .ok (.call 0xABC) ∧
    decodeWord 0xA5F7#16 = .ok (.ldI 0x5F7) ∧ decodeWord 0xBFFF#16 = .ok (.jpV0 0xFFF) := by decide
theorem test_decode_immediates : decodeWord 0x3F01#16 = .ok (.seImm 0xF 0x01) ∧
    decodeWord 0x4310#16 = .ok (.sneImm 0x3 0x10) ∧ decodeWord 0x6A2F#16 = .ok (.ldImm 0xA 0x2F) ∧
    decodeWord 0x70FE#16 = .ok (.addImm 0x0 0xFE) ∧ decodeWord 0xC30F#16 = .ok (.rnd 0x3 0x0F) := by decide
theorem test_decode_registers : decodeWord 0x5120#16 = .ok (.seReg 0x1 0x2) ∧
    decodeWord 0x9340#16 = .ok (.sneReg 0x3 0x4) ∧ decodeWord 0xD12F#16 = .ok (.drw 0x1 0x2 0xF) := by decide
theorem test_decode_alu : decodeWord 0x8120#16 = .ok (.ldReg 0x1 0x2) ∧ decodeWord 0x8121#16 = .ok (.orReg 0x1 0x2) ∧
    decodeWord 0x8122#16 = .ok (.andReg 0x1 0x2) ∧ decodeWord 0x8123#16 = .ok (.xorReg 0x1 0x2) ∧
    decodeWord 0x8124#16 = .ok (.addReg 0x1 0x2) ∧ decodeWord 0x8125#16 = .ok (.subReg 0x1 0x2) ∧
    decodeWord 0x82A6#16 = .ok (.shr 0x2 0xA) ∧ decodeWord 0x8127#16 = .ok (.subnReg 0x1 0x2) ∧
    decodeWord 0x8F0E#16 = .ok (.shl 0xF 0x0) := by decide
theorem test_decode_keys : decodeWord 0xE59E#16 = .ok (.skp 0x5) ∧ decodeWord 0xE5A1#16 = .ok (.sknp 0x5) := by decide
theorem test_decode_misc : decodeWord 0xF307#16 = .ok (.ldVxDt 0x3) ∧ decodeWord 0xF40A#16 = .ok (.ldVxK 0x4) ∧
    decodeWord 0xF515#16 = .ok (.ldDtVx 0x5) ∧ decodeWord 0xF618#16 = .ok (.ldStVx 0x6) ∧
    decodeWord 0xF71E#16 = .ok (.addI 0x7) ∧ decodeWord 0xF829#16 = .ok (.ldF 0x8) ∧
    decodeWord 0xF933#16 = .ok (.ldB 0x9) ∧ decodeWord 0xFA55#16 = .ok (.stRegs 0xA) ∧
    decodeWord 0xFB65#16 = .ok (.ldRegs 0xB) := by decide
/-- FD7 to FD15. -/
theorem test_decode_rejects : decodeWord 0x0123#16 = .error (.zeroFamily 0x0123) ∧
    decodeWord 0x00E1#16 = .error (.zeroFamily 0x00E1) ∧ decodeWord 0x5121#16 = .error (.skipRegisterFamily 0x5121) ∧
    decodeWord 0x8008#16 = .error (.aluFamily 0x8008) ∧ decodeWord 0x800F#16 = .error (.aluFamily 0x800F) ∧
    decodeWord 0x9121#16 = .error (.skipRegisterFamily 0x9121) ∧ decodeWord 0xE000#16 = .error (.keyFamily 0xE000) ∧
    decodeWord 0xF000#16 = .error (.miscFamily 0xF000) ∧ decodeWord 0xFFFF#16 = .error (.miscFamily 0xFFFF) := by decide
/-- R80: an instruction is exactly two bytes, and the bytes after it are left. -/
theorem test_decode_bytes : decode [0x12] = .error .truncated ∧ decode [0x12, 0x34, 0x56] = .ok (.jp 0x234, [0x56]) := by
  decide
theorem test_decodeTableWord : decodeTableWord 16 0xD12F = some (.drw 0x1 0x2 0xF) ∧ decodeTableWord 16 0x0123 = none := by
  decide
theorem test_opcodeTable_rows : opcodeTable.length = 35 := by decide

/-! ## Fetch, errors and the state after them -/

/-- FD2. -/
theorem test_fetch_at_end : okPart (·.pc) (step0 (State.reset.setPc 0xFFE)) = some 0x1000 := by decide
/-- FD3. -/
theorem test_fetch_past_end : transactStep 0 (State.reset.setPc 0x1000) =
    (State.reset.setPc 0x1000, .err (.memoryBounds 0x1000 none 0x1000)) := by decide +kernel
/-- FD4. -/
theorem test_fetch_half_word : errPart (step0 (State.reset.setPc 0xFFF)) = some (.memoryBounds 0xFFF none 0x1000) := by
  decide
/-- FD5. -/
theorem test_fetch_far : errPart (step0 (State.reset.setPc 0x10FE)) = some (.memoryBounds 0x10FE none 0x10FE) := by decide
/-- FD6: an odd `pc`. -/
theorem test_fetch_odd : okPart (fun t => (t.getV 0, t.pc)) (step0 ((State.reset.setPc 0x203).withFetchWord 16 0x6042)) =
    some (0x42, 0x205) := by decide
/-- FD16. -/
theorem test_decode_error : transactStep 0 ((placed 0xF008).setV 0 0xFF) =
    (((placed 0xF008).setV 0 0xFF).setPc 0x202, .err (.decodeError 0x200 0xF008)) := by decide +kernel

/-! ## Control flow -/

/-- CF1. -/
theorem test_nop : okPart id (stepWith 0 (placed 0x0000)) = some ((placed 0x0000).setPc 0x202) := by decide +kernel
/-- CF2. -/
theorem test_ret : okPart (fun t => (t.pc, t.sp, t.stack[0])) (step0 (withStack 1 0x206 (placed 0x00EE))) =
    some (0x206, 0, 0x206) := by decide
/-- CF3. -/
theorem test_ret_empty : errPart (step0 (placed 0x00EE)) = some (.stackBounds 0x200 0x00EE .pop) := by decide
/-- CF5. -/
theorem test_jp : okPart (·.pc) (step0 (placed 0x1200)) = some 0x200 := by decide
/-- CF8. -/
theorem test_call : okPart (fun t => (t.pc, t.sp, t.stack[15], t.stack[14])) (step0 (withStack 15 0x300 (placed 0x2ABC))) =
    some (0xABC, 16, 0x202, 0x300) := by decide
/-- CF9. -/
theorem test_call_full : errPart (step0 (withStack 16 0x300 (placed 0x2ABC))) = some (.stackBounds 0x200 0x2ABC .push) := by
  decide
/-- CF10 and CF11. -/
theorem test_se_imm : okPart (·.pc) (step0 ((placed 0x3310).setV 3 0x10)) = some 0x204 ∧
    okPart (·.pc) (step0 ((placed 0x3310).setV 3 0x11)) = some 0x202 := by decide
/-- CF15 and CF16. -/
theorem test_sne_imm : okPart (·.pc) (step0 ((placed 0x4310).setV 3 0x11)) = some 0x204 ∧
    okPart (·.pc) (step0 ((placed 0x4310).setV 3 0x10)) = some 0x202 := by decide
/-- CF17 and CF19. -/
theorem test_se_reg : okPart (·.pc) (step0 (((placed 0x5120).setV 1 0x7F).setV 2 0x7F)) = some 0x204 ∧
    okPart (·.pc) (step0 (((placed 0x5120).setV 1 1).setV 2 2)) = some 0x202 := by decide
/-- CF20 and CF21. -/
theorem test_sne_reg : okPart (·.pc) (step0 (((placed 0x9120).setV 1 1).setV 2 2)) = some 0x204 ∧
    okPart (·.pc) (step0 ((placed 0x9110).setV 1 1)) = some 0x202 := by decide
/-- CF24: not masked. -/
theorem test_jp_v0 : okPart (·.pc) (step0 ((placed 0xBFFF).setV 0 0xFF)) = some 0x10FE := by decide

/-! ## Arithmetic, logic, shifts, random -/

/-- AL2. -/
theorem test_ld_imm : okPart (·.getV 0xF) (step0 ((placed 0x6F05).setV 0xF 1)) = some 5 := by decide
/-- AL4: no carry flag. -/
theorem test_add_imm : okPart (fun t => (t.getV 0, t.getV 0xF)) (step0 (((placed 0x70FF).setV 0 1).setV 0xF 7)) =
    some (0, 7) := by decide
/-- AL6. -/
theorem test_ld_reg : okPart (fun t => (t.getV 0, t.getV 1)) (step0 ((placed 0x8010).setV 1 0x33)) = some (0x33, 0x33) := by
  decide
/-- AL7: no VF reset. -/
theorem test_or : okPart (fun t => (t.getV 0, t.getV 0xF))
    (step0 ((((placed 0x8011).setV 0 0x0F).setV 1 0xF0).setV 0xF 7)) = some (0xFF, 7) := by decide
/-- AL8. -/
theorem test_and : okPart (·.getV 0) (step0 (((placed 0x8012).setV 0 0x3C).setV 1 0x0F)) = some 0x0C := by decide
/-- AL9. -/
theorem test_xor : okPart (·.getV 0) (step0 (((placed 0x8013).setV 0 0xFF).setV 1 0x0F)) = some 0xF0 := by decide
/-- S2. -/
theorem test_add_reg : okPart (fun t => (t.getV 0, t.getV 0xF)) (step0 (((placed 0x8014).setV 0 0xFF).setV 1 1)) =
    some (0, 1) := by decide
/-- AL16 and AL18: the flag is written last, the operands are read first. -/
theorem test_add_reg_vf : okPart (·.getV 0xF) (step0 (((placed 0x8F14).setV 0xF 0x10).setV 1 0xF5)) = some 1 ∧
    okPart (fun t => (t.getV 0, t.getV 0xF)) (step0 (((placed 0x80F4).setV 0 1).setV 0xF 0xFF)) = some (0, 1) := by decide
/-- S4. -/
theorem test_sub : okPart (fun t => (t.getV 0, t.getV 0xF)) (step0 (((placed 0x8015).setV 0 1).setV 1 2)) =
    some (0xFF, 0) := by decide
/-- AL20: equal operands do not borrow. -/
theorem test_sub_equal : okPart (fun t => (t.getV 0, t.getV 0xF)) (step0 (((placed 0x8015).setV 0 7).setV 1 7)) =
    some (0, 1) := by decide
/-- AL24: Y ignored. -/
theorem test_shr : okPart (fun t => (t.getV 2, t.getV 0xF, t.getV 0xA))
    (step0 (((placed 0x82A6).setV 2 5).setV 0xA 0x99)) = some (2, 1, 0x99) := by decide
/-- AL28. -/
theorem test_shr_vf : okPart (·.getV 0xF) (step0 ((placed 0x8F06).setV 0xF 3)) = some 1 := by decide
/-- AL30. -/
theorem test_subn : okPart (fun t => (t.getV 0, t.getV 0xF)) (step0 (((placed 0x8017).setV 0 2).setV 1 5)) =
    some (3, 1) := by decide
/-- AL33. -/
theorem test_subn_vf : okPart (·.getV 0xF) (step0 (((placed 0x8F17).setV 0xF 5).setV 1 2)) = some 0 := by decide
/-- AL34. -/
theorem test_shl : okPart (fun t => (t.getV 2, t.getV 0xF)) (step0 ((placed 0x820E).setV 2 0x81)) = some (2, 1) := by decide
/-- AL40. -/
theorem test_shl_vf : okPart (·.getV 0xF) (step0 ((placed 0x8FFE).setV 0xF 0x40)) = some 0 := by decide
/-- AL41. -/
theorem test_rnd : okPart (·.getV 3) (stepWith 0xA7 (placed 0xC30F)) = some 7 := by decide
/-- AL44: the input the environment supplied to `step`. -/
theorem test_rnd_vf : okPart (·.getV 0xF) (step { placed 0xCF80 with rndInputs := [0x80] }) = some 0x80 := by decide

/-! ## Index register and memory -/

/-- MM1. -/
theorem test_ld_i : okPart (·.i) (step0 (placed 0xA300)) = some 0x300 := by decide
/-- MM4. -/
theorem test_add_i : okPart (fun t => (t.i, t.getV 0xF)) (step0 ((((placed 0xF01E).setI 0xFFFF).setV 0 1).setV 0xF 9)) =
    some (0, 9) := by decide
/-- MM11: not masked. -/
theorem test_ld_f : okPart (·.i) (step0 ((placed 0xF029).setV 0 0xFF)) = some 0x4FB := by decide
/-- MM12. -/
theorem test_ld_b : okPart (fun t => (t.byte 0x300, t.byte 0x301, t.byte 0x302, t.i))
    (step0 (((placed 0xF033).setV 0 0xEA).setI 0x300)) = some (2, 3, 4, 0x300) := by decide
/-- MM16. -/
theorem test_ld_b_bounds : errPart (step0 ((placed 0xF033).setI 0xFFE)) =
    some (.memoryBounds 0x200 (some 0xF033) 0x1000) := by decide
/-- MM19. -/
theorem test_st_regs : okPart (fun t => (t.byte 0x400, t.byte 0x401, t.byte 0x402, t.i))
    (step0 ((((placed 0xF155).setV 0 0x11).setV 1 0x22).setI 0x400)) = some (0x11, 0x22, 0, 0x400) := by decide
/-- MM22. -/
theorem test_st_regs_bounds : errPart (step0 ((placed 0xFF55).setI 0xFF1)) =
    some (.memoryBounds 0x200 (some 0xFF55) 0x1000) := by decide
/-- MM27, which reads the default font. -/
theorem test_ld_regs : okPart (fun t => (t.getV 0, t.getV 1, t.getV 2, t.getV 3, t.getV 4, t.getV 5))
    (step0 ((placed 0xF465).setI 5)) = some (0x20, 0x60, 0x20, 0x20, 0x70, 0) := by decide
/-- MM25. -/
theorem test_ld_regs_bounds : errPart (step0 ((placed 0xF165).setI 0xFFF)) =
    some (.memoryBounds 0x200 (some 0xF165) 0x1000) := by decide
/-- Log entry 3: writing back what an unlisted address reads as lists nothing. -/
theorem test_put_canonical : (Memory.put [(0x300, 5)] 0x300 0 = []) ∧ Memory.put [] 0 0xF0 = [] := by decide

/-! ## Graphics -/

/-- GR1. -/
theorem test_cls : okPart (fun t => (t.pixel 3 4, t.getV 0xF))
    (step0 ((((placed 0x00E0).setFb (Framebuffer.clear.toggle 3 4)).setV 0xF 5))) = some (false, 5) := by decide +kernel
/-- GR4: column wrap. -/
theorem test_drw_wrap : okPart (fun t => (t.pixel 0x3C 5, t.pixel 0x3F 5, t.pixel 0 5, t.pixel 3 5, t.pixel 4 5, t.getV 0xF))
    (step0 (((((placed 0xD011).setV 0 0x3C).setV 1 5).setI 0x300).storeBytes 0x300 [0xFF])) =
    some (true, true, true, true, false, 0) := by decide +kernel
/-- GR10: a collision in row 0 survives row 1. -/
theorem test_drw_collision : okPart (fun t => (t.pixel 0 0, t.pixel 0 1, t.getV 0xF))
    (step0 ((((placed 0xD002).setFb (Framebuffer.clear.toggle 0 0)).setI 0x300).storeBytes 0x300 [0x80, 0x80])) =
    some (false, true, 1) := by decide +kernel

/-! ## Keypad and timers -/

/-- KT1 and KT2. -/
theorem test_skp : okPart (·.pc) (step0 (((placed 0xE59E).setV 5 0xC).setKey 0xC true)) = some 0x204 ∧
    okPart (·.pc) (step0 ((placed 0xE59E).setV 5 0xC)) = some 0x202 := by decide
/-- KT5. -/
theorem test_skp_index : errPart (step0 ((placed 0xE59E).setV 5 0x10)) = some (.keyIndex 0x200 0xE59E 0x10) := by decide
/-- KT3 and KT4. -/
theorem test_sknp : okPart (·.pc) (step0 ((placed 0xE5A1).setV 5 0xC)) = some 0x204 ∧
    okPart (·.pc) (step0 (((placed 0xE5A1).setV 5 0xC).setKey 0xC true)) = some 0x202 := by decide
/-- KT6. -/
theorem test_sknp_index : errPart (step0 ((placed 0xE5A1).setV 5 0xFF)) = some (.keyIndex 0x200 0xE5A1 0xFF) := by decide
/-- KT8. -/
theorem test_ld_vx_dt : okPart (fun t => (t.getV 3, t.dt)) (step0 ((placed 0xF307).setDt 0x3C)) = some (0x3C, 0x3C) := by
  decide
/-- KT9. -/
theorem test_ld_vx_k_none : okPart (fun t => (t.pc, t.getV 0)) (step0 ((placed 0xF00A).setV 0 0x42)) =
    some (0x200, 0x42) := by decide
/-- KT10. -/
theorem test_ld_vx_k : okPart (fun t => (t.getV 0, t.pc, t.keyDown 9)) (step0 (((placed 0xF00A).setKey 9 true).setKey 3 true)) =
    some (3, 0x202, true) := by decide
/-- KT13. -/
theorem test_ld_dt_vx : okPart (fun t => (t.dt, t.st)) (step0 ((placed 0xF015).setV 0 7)) = some (7, 0) := by decide
/-- KT14. -/
theorem test_ld_st_vx : okPart (fun t => (t.st, t.dt, t.soundActive)) (step0 ((placed 0xF118).setV 1 2)) =
    some (2, 0, true) := by decide
/-- KT16 and KT17. -/
theorem test_tick : (((State.reset.setDt 0x3C).tick).dt, ((State.reset.setDt 0x3C).tick).st) = (0x3B, 0) ∧
    (State.reset.setSt 1).tick.soundActive = false := by decide

/-! ## Host transactions -/

/-- R251 with the default font gives the state `reset`. -/
theorem test_reset_default_font : State.resetWith Config.defaultFontRom = State.reset := by decide +kernel
/-- HT6. -/
theorem test_step_before_load : okPart (·.pc) (step State.reset) = some 0x202 := by decide
/-- HT4. -/
theorem test_load_over : ((transact Config.defaultFontRom (.load [0x60, 0x01]) (State.reset.storeBytes 0x200
    [0x12, 0x34, 0x56, 0x78])).1.mem) = [(0x200, 0x60), (0x201, 0x01), (0x202, 0x56), (0x203, 0x78)] := by decide
/-- HT7. -/
theorem test_read_st : (transact Config.defaultFontRom .readSt (State.reset.setSt 1)).2 = .soundTimer 1 true := by decide

/-! ## Witnesses: for each obligation with hypotheses, a state and operands that meet them, at the boundaries of its clauses -/

/-- DecodeOfEncodeIsTheInstruction: operands at their largest values. -/
theorem witness_DecodeOfEncode : WellFormed (.call 0xFFF) = true ∧ WellFormed (.drw 0xF 0xF 0xF) = true ∧
    WellFormed (.rnd 0xF 0xFF) = true := by decide
/-- EncodeOfDecodeIsTheWord. -/
theorem witness_EncodeOfDecode : decodeWord 0xD12F#16 = .ok (.drw 0x1 0x2 0xF) := by decide
/-- RejectedWordsAreExactlyTheIllegalOnes, both clauses, on either side of a boundary. -/
theorem witness_RejectedWords : ¬ IllegalWord 0x0000#16 ∧ IllegalWord 0x0001#16 ∧ ¬ IllegalWord 0x5120#16 ∧
    IllegalWord 0x5121#16 ∧ IllegalWord 0x8008#16 ∧ IllegalWord 0xE09F#16 ∧ IllegalWord 0xFFFF#16 := by
  simp [IllegalWord]
/-- DecodeAgreesWithTheOpcodeTable, both clauses; and one row that matches. -/
theorem witness_DecodeAgrees : decodeWord 0x8126#16 = .ok (.shr 0x1 0x2) ∧
    decodeWord 0x8128#16 = .error (.aluFamily 0x8128) ∧ OpcodeRow.matches ⟨"SHR", 0x8006, 0xF00F⟩ 0x8126 = true := by decide
/-- StepRunsTheDecodedInstruction. -/
theorem witness_StepRuns : (State.reset.setPc 0xFFE).pc.toNat ≤ 0xFFE ∧
    decodeWord (State.reset.setPc 0xFFE).wordAtPc = .ok .nop ∧ decodeWord (placed 0xD01F).wordAtPc = .ok (.drw 0 1 0xF) := by
  decide
/-- FetchReadsTwoBytesBigEndian and FailedFetchIsReportedAndChangesNothing: the three ranges of `pc`. -/
theorem witness_Fetch : (State.reset.setPc 0xFFE).pc.toNat ≤ 0xFFE ∧ (State.reset.setPc 0xFFF).pc.toNat = 0xFFF ∧
    (State.reset.setPc 0x1000).pc.toNat > 0xFFF := by decide
/-- UnrecognisedWordIsADecodeError. -/
theorem witness_UnrecognisedWord : (placed 0x0123).pc.toNat ≤ 0xFFE ∧
    ∀ row ∈ opcodeTable, row.matches (placed 0x0123).wordAtPc = false := by decide
/-- EachInstructionRaisesOnlyItsOwnError, one clause each: the stack at its ends, the access one byte too far, the first
value that names no key. -/
theorem witness_Raises_ret : exec .ret State.reset = .fault (.stackBounds 0x1FE 0x00EE .pop) :=
  fault_of_errPart (by decide)
theorem witness_Raises_call : exec (.call 0xABC) (withStack 16 0 State.reset) = .fault (.stackBounds 0x1FE 0x2ABC .push) :=
  fault_of_errPart (by decide)
theorem witness_Raises_drw : exec (.drw 0 1 2) (State.reset.setI 0xFFF) =
    .fault (.memoryBounds 0x1FE (some 0xD012) 0x1000) := fault_of_errPart (by decide)
theorem witness_Raises_ldB : exec (.ldB 0) (State.reset.setI 0xFFE) =
    .fault (.memoryBounds 0x1FE (some 0xF033) 0x1000) := fault_of_errPart (by decide)
theorem witness_Raises_stRegs : exec (.stRegs 1) (State.reset.setI 0xFFF) =
    .fault (.memoryBounds 0x1FE (some 0xF155) 0x1000) := fault_of_errPart (by decide)
theorem witness_Raises_ldRegs : exec (.ldRegs 0) (State.reset.setI 0xFFFF) =
    .fault (.memoryBounds 0x1FE (some 0xF065) 0xFFFF) := fault_of_errPart (by decide)
theorem witness_Raises_skp : exec (.skp 5) (State.reset.setV 5 0x10) = .fault (.keyIndex 0x1FE 0xE59E 0x10) :=
  fault_of_errPart (by decide)
theorem witness_Raises_sknp : exec (.sknp 5) (State.reset.setV 5 0x10) = .fault (.keyIndex 0x1FE 0xE5A1 0x10) :=
  fault_of_errPart (by decide)
/-- StepErrorRecordsFetchAddressAndWord and StateAfterAnErrorIsPrecise: an error of the fetch, of the decoder, of the
execute phase. -/
theorem witness_StepError_fetch : stepWith 0 (State.reset.setPc 0xFFF) = .fault (.memoryBounds 0xFFF none 0x1000) :=
  fault_of_errPart (by decide)
theorem witness_StepError_decode : stepWith 0 (placed 0x0123) = .fault (.decodeError 0x200 0x0123) :=
  fault_of_errPart (by decide)
theorem witness_StepError_execute : stepWith 0 (placed 0x00EE) = .fault (.stackBounds 0x200 0x00EE .pop) :=
  fault_of_errPart (by decide)
theorem witness_StateAfterError : transactStep 0 (State.reset.setPc 0xFFF) =
      (State.reset.setPc 0xFFF, .err (.memoryBounds 0xFFF none 0x1000)) ∧
    transactStep 0 (placed 0x00EE) = ((placed 0x00EE).setPc 0x202, .err (.stackBounds 0x200 0x00EE .pop)) := by
  decide +kernel
/-- StepKeepsMemoryCanonical, StepKeepsProgramCounterInRange: a step that stores, and one that leaves `pc` past the end
of memory, each from a state that meets the invariant. -/
theorem witness_StepKeepsMemory : (((placed 0xF055).setI 0x300).setV 0 7).mem.wf = true ∧
    ∃ t, step (((placed 0xF055).setI 0x300).setV 0 7) = .next t ∧ (t.byte 0x300 == 7) = true :=
  ⟨by decide, next_of_okPart (by decide)⟩
theorem witness_PcInRange : PcInRange ((placed 0xBFFF).setV 0 0xFF) ∧
    ∃ t, step ((placed 0xBFFF).setV 0 0xFF) = .next t ∧ (t.pc == 0x10FE) = true :=
  ⟨by unfold PcInRange; decide, next_of_okPart (by decide)⟩
/-- EveryScheduleKeepsTheInvariant: the reset state, and a full stack at its bound. -/
theorem witness_CoreInvariant : CoreInvariant State.reset ∧ CoreInvariant (withStack 16 0x1000 State.reset) := by
  unfold CoreInvariant PcInRange
  decide
/-- EvenTargetsKeepTheProgramCounterEven, each clause of `EvenTarget`. -/
theorem witness_Even : AllEven (placed 0x2FFE) ∧ (placed 0x2FFE).pc.toNat ≤ 0xFFE ∧
    decodeWord (placed 0x2FFE).wordAtPc = .ok (.call 0xFFE) ∧ EvenTarget (.call 0xFFE) (placed 0x2FFE) ∧
    EvenTarget (.jp 0xFFE) State.reset ∧ EvenTarget (.jpV0 0xFFF) (State.reset.setV 0 1) ∧
    ∃ t, step (placed 0x2FFE) = .next t ∧ (t.pc == 0xFFE) = true :=
  ⟨by unfold AllEven; decide, by decide, by decide, by unfold EvenTarget; decide, by unfold EvenTarget; decide,
    by unfold EvenTarget; decide, next_of_okPart (by decide)⟩
/-- ProgramCounterAfterEachInstruction, OnlyNamedInstructionsChangeDevicesAndStack and the other statements about every
next state: RET answers one. -/
theorem witness_NextState_ret : ∃ t, exec .ret (withStack 1 0x206 State.reset) = .next t ∧
    (t.pc == 0x206 && t.sp == 0) = true := next_of_okPart (by decide)
/-- NopAndJumpResults and RegisterSkipResults: the targets whose next fetch faults. -/
theorem witness_JumpToEnd : ∃ t, exec (.jp 0xFFF) State.reset = .next t ∧ (t.pc == 0xFFF) = true :=
  next_of_okPart (by decide)
theorem witness_SkipPastEnd : ∃ t, exec (.seImm 0 0) (State.reset.setPc 0x1000) = .next t ∧
    decide (t.pc.toNat ≥ 0xFFF) = true := next_of_okPart (by decide)
/-- CallPushesTheReturnAddress and ReturnPopsTheTopEntry: the last free slot, the full stack, the first entry, the empty
stack; and the word at `pc`. -/
theorem witness_Stack : (withStack 15 0 State.reset).sp.val < 16 ∧ (withStack 16 0 State.reset).sp.val = 16 ∧
    0 < (withStack 1 0 State.reset).sp.val ∧ State.reset.sp.val = 0 ∧
    (withStack 16 0 (placed 0x2ABC)).wordAtPc = encode (.call 0xABC) ∧ (placed 0x00EE).wordAtPc = encode .ret ∧
    (placed 0x00EE).pc.toNat ≤ 0xFFE := by decide
/-- ReturnResumesAfterTheMatchingCall: the state the CALL left itself has its stack. -/
theorem witness_CallThenReturn : ∃ t u, exec (.call 0x300) State.reset = .next t ∧ SameStack t u ∧ u.sp.val = 1 :=
  ⟨_, _, execCall_ok State.reset 0x300 (by decide), ⟨rfl, fun _ => rfl⟩, rfl⟩
/-- KeySkipsFollowTheLatch: the last key and the first value that is none. -/
theorem witness_KeySkips : ((State.reset.setV 5 0xF).getV 5).toNat = (0xF#4 : Nibble).toNat ∧
    ((State.reset.setV 5 0x10).getV 5).toNat > 0xF := by decide
/-- RandomInputReachesOnlyRnd: an instruction that is no CXNN, with a next state and with an error. -/
theorem witness_RandomInput : (∀ x nn, Instr.ret ≠ .rnd x nn) ∧ (∃ t, exec .ret (withStack 1 0 State.reset) = .next t) ∧
    exec .ret State.reset = .fault (.stackBounds 0x1FE 0x00EE .pop) :=
  ⟨by intro x nn; exact Instr.noConfusion, ⟨_, execRet_ok (withStack 1 0 State.reset) (by decide)⟩, witness_Raises_ret⟩
/-- OnlyFlagInstructionsOrDestinationsWriteVF. -/
theorem witness_WritesVF : ∃ t, exec (.subReg 0 1) State.reset = .next t ∧ (t.getV 0xF != State.reset.getV 0xF) = true :=
  next_of_okPart (by decide)
/-- BcdDigitsAreStored, BlockStoreResults and BlockLoadResults: the last address that fits and the first that does not. -/
theorem witness_Bounds : (State.reset.setI 0xFFD).i.toNat + 2 ≤ 0xFFF ∧ (State.reset.setI 0xFFE).i.toNat + 2 > 0xFFF ∧
    (State.reset.setI 0xFF0).i.toNat + (0xF#4 : Nibble).toNat ≤ 0xFFF ∧
    (State.reset.setI 0xFF1).i.toNat + (0xF#4 : Nibble).toNat > 0xFFF := by decide
/-- BlockLoadRestoresWhatBlockStoreSaved and FetchSeesAnEarlierStore: the state the store left, `pc` set to I. -/
theorem witness_StoreThenLoad : ∃ t u, exec (.stRegs 1) (State.reset.setI 0x300) = .next t ∧ SameMemory t u ∧
    u.mem = t.mem ∧ u.i = (State.reset.setI 0x300).i ∧ u.pc = (State.reset.setI 0x300).i := by
  obtain ⟨m, h, -⟩ := storeThroughIndex_ok (.stRegs 1) ((State.reset.setI 0x300).regsUpTo 1) (State.reset.setI 0x300)
    (Or.inr (by decide))
  exact ⟨_, ((State.reset.setI 0x300).setMem m).setPc 0x300, h, fun _ => rfl, rfl, rfl, rfl⟩
/-- CanonicalMemoriesThatReadAlikeAreEqual. -/
theorem witness_Canonical : Memory.wf [(0x000, 0x11), (0x300, 0x05), (0xFFF, 0x01)] = true ∧
    ∀ a < 0x1000, Memory.get [(0x300, 0x05)] a = Memory.get (Memory.put [] 0x300 0x05) a :=
  ⟨by decide, fun _ _ => rfl⟩
/-- OnlyBcdAndBlockStoreChangeMemory. -/
theorem witness_ChangesMemory : ∃ t, exec (.ldB 0) (State.reset.setI 0) = .next t ∧
    (t.byte 0 != (State.reset.setI 0).byte 0) = true := next_of_okPart (by decide)
/-- OnlyIndexInstructionsChangeI. -/
theorem witness_ChangesI : ∃ t, exec (.ldI 0xFFF) State.reset = .next t ∧ (t.i != State.reset.i) = true :=
  next_of_okPart (by decide)
/-- DrawXorsTheSpriteAndReportsCollision: no rows, the last sprite that fits, the first that does not; and a set bit. -/
theorem witness_Draw : (State.reset.setI 0xFF1).i.toNat + (0xF#4 : Nibble).toNat ≤ 0x1000 ∧
    (State.reset.setI 0xFF2).i.toNat + (0xF#4 : Nibble).toNat > 0x1000 ∧ SpriteSets State.reset 0 0 1 3 0 :=
  ⟨by decide, by decide, ⟨0, 3, by decide, by decide, by decide, by decide, by decide⟩⟩
/-- DrawingTwiceRestoresTheFramebuffer: X and Y other than F, so that the first draw leaves their values. -/
theorem witness_DrawTwice : ∃ t w, exec (.drw 0 1 5) State.reset = .next t ∧ SameScreen t t ∧
    SameMemory State.reset t ∧ t.i = State.reset.i ∧ t.getV 0 = State.reset.getV 0 ∧ t.getV 1 = State.reset.getV 1 ∧
    exec (.drw 0 1 5) t = .next w :=
  ⟨_, _, execDrw_ok State.reset 0 1 5 (Or.inr (by decide)), fun _ _ => rfl, fun _ => rfl, rfl,
    State.getV_setV_ne _ _ (by decide), State.getV_setV_ne _ _ (by decide),
    execDrw_ok ((State.reset.setFb (drawRows (State.reset.getV 0) (State.reset.getV 1) 0 (State.reset.spriteRows 5)
      (State.reset.fb, false)).1).setV regF (collisionFlag (drawRows (State.reset.getV 0) (State.reset.getV 1) 0
      (State.reset.spriteRows 5) (State.reset.fb, false)).2)) 0 1 5 (Or.inr (by decide : 0 + 5 ≤ 0x1000))⟩
/-- BlockOnKeyTakesTheLowestKeyOrRewinds: the last key alone, and no key. -/
theorem witness_BlockOnKey : (State.reset.setKey 0xF true).keyDown 0xF = true ∧
    (∀ j : Nibble, j.toNat < (0xF#4 : Nibble).toNat → (State.reset.setKey 0xF true).keyDown j = false) ∧
    ∀ k : Nibble, State.reset.keyDown k = false := by decide
/-- WaitingForAKeyStaysAtTheInstruction. -/
theorem witness_WaitingForAKey : (placed 0xFF0A).pc.toNat ≤ 0xFFE ∧
    (placed 0xFF0A).wordAtPc.toNat = 0xF00A + 256 * (0xF#4 : Nibble).toNat ∧
    ∀ k : Nibble, (placed 0xFF0A).keyDown k = false := by decide
/-- LoadCopiesTheProgramOrRefuses: the longest program and one byte more. -/
theorem witness_Load : (List.replicate 3584 (0 : Byte)).length ≤ 3584 ∧ (List.replicate 3585 (0 : Byte)).length > 3584 := by
  rw [List.length_replicate, List.length_replicate]
  decide
/-- StepsBeforeLoadRunNopsToTheEndOfMemory: the last of the NOPs. -/
theorem witness_StepsBeforeLoad : (1792 : Nat) ≤ 1792 := by decide
/-- EveryErrorRecordsItsInformation: a STEP error of each kind, a fetch error, and a LOAD one byte too long. -/
theorem witness_ErrorInfo_step :
    (transact Config.defaultFontRom (.step 0) (placed 0x0123)).2.errorInfo =
      some ⟨1, some 0x200, some 0x0123, none, none, none⟩ ∧
    (transact Config.defaultFontRom (.step 0) ((placed 0xF155).setI 0xFFF)).2.errorInfo =
      some ⟨2, some 0x200, some 0xF155, some 0x1000, none, none⟩ ∧
    (transact Config.defaultFontRom (.step 0) (placed 0x00EE)).2.errorInfo =
      some ⟨3, some 0x200, some 0x00EE, none, some .pop, none⟩ ∧
    (transact Config.defaultFontRom (.step 0) ((placed 0xE59E).setV 5 0x10)).2.errorInfo =
      some ⟨4, some 0x200, some 0xE59E, none, none, some 0x10⟩ := by decide
theorem witness_ErrorInfo_fetch : (transact Config.defaultFontRom (.step 0) (State.reset.setPc 0x10FE)).2.errorInfo =
    some ⟨2, some 0x10FE, none, some 0x10FE, none, none⟩ := by decide
theorem witness_ErrorInfo_load :
    (transact Config.defaultFontRom (.load (List.replicate 3585 0)) State.reset).2.errorInfo =
      some ⟨2, none, none, some 0x1000, none, none⟩ := by
  simp only [transact, State.load_error State.reset (List.replicate 3585 0) witness_Load.2]
  rfl
/-- StepOverZeroedMemoryOnlyAdvances: the last word of memory. -/
theorem witness_StepOverZero : (State.reset.setPc 0xFFE).pc.toNat ≤ 0xFFE ∧
    (State.reset.setPc 0xFFE).byte 0xFFE = 0 ∧ (State.reset.setPc 0xFFE).byte 0xFFF = 0 := by decide
/-- CoreRunIsTheScheduleOfSteps. -/
theorem witness_CoreRun : ({ placed 0xC3FF with rndInputs := [0xA7] } : State).rndInputs = [0xA7] ∧
    ∃ t : State, Host.Core.run Sys2Proof.core [(0xA7 : Byte)].length { placed 0xC3FF with rndInputs := [0xA7] } = .next t ∧
      (t.getV 3 == 0xA7) = true :=
  ⟨rfl, next_of_okPart (r := Host.Core.run Sys2Proof.core 1 { placed 0xC3FF with rndInputs := [0xA7] }) (by decide)⟩

end Sys2Proof.Tests
end

/-!
PROOFS of the statements of 30_encoding.md: what the fetch reads and where it stops.
-/

namespace Sys2Proof.Proofs.Encoding

open Sys2Proof.Machine

/-- The high byte of a word built from two bytes is the first one (30_encoding.md R70). -/
theorem wordOfBytes_toNat_div (hi lo : Byte) : (wordOfBytes hi lo).toNat / 256 = hi.toNat := by
  rw [wordOfBytes_toNat]
  omega

/-- The low byte of a word built from two bytes is the second one (30_encoding.md R70). -/
theorem wordOfBytes_toNat_mod (hi lo : Byte) : (wordOfBytes hi lo).toNat % 256 = lo.toNat := by
  rw [wordOfBytes_toNat]
  omega

/-- Settles O7: the three ranges of `pc` are those of `fetch_ok` and `fetch_error`, the lowest bad address being
`max pc 0x1000`. -/
theorem fetchReadsTwoBytesBigEndian : Obligations.FetchReadsTwoBytesBigEndian := by
  intro s
  refine ⟨fun inRange => ?_, fun pastEnd => ?_, fun lastByte => ?_, fun r => ?_⟩
  · have bigEndian := wordOfBytes_toNat (s.byte s.pc.toNat) (s.byte (s.pc.toNat + 1))
    exact ⟨_, fetch_ok s inRange, by omega, wordOfBytes_toNat_div _ _, wordOfBytes_toNat_mod _ _⟩
  · have lowestBad : max s.pc.toNat 0x1000 = s.pc.toNat := by omega
    rw [fetch_error s (by omega), lowestBad]
  · have lowestBad : max s.pc.toNat 0x1000 = s.pc.toNat + 1 := by omega
    rw [fetch_error s (by omega), lowestBad]
  · rw [State.fetched_pc]
    exact BitVec.toNat_add s.pc 2

end Sys2Proof.Proofs.Encoding

/-!
PROOFS of the statements of 40_control_flow.md: jumps, calls, returns and skips, what they leave alone, and the STEP over
zeroed memory.
-/

namespace Sys2Proof.Proofs.ControlFlow

open Sys2Proof.Machine

/-! ## Frames of the two updates control flow makes -/

theorem sameOutsidePc_setPc (s : State) (w : Word) : SameOutsidePc s (s.setPc w) :=
  ⟨fun _ => rfl, rfl, ⟨rfl, fun _ => rfl⟩, fun _ => rfl, fun _ _ => rfl, ⟨rfl, rfl⟩, fun _ => rfl, rfl, rfl, rfl⟩

theorem sameOutsidePc_skipIf (s : State) (c : Bool) : SameOutsidePc s (s.skipIf c) := by
  rw [State.skipIf_eq]
  exact sameOutsidePc_setPc s _

/-- Everything a CALL or a RET keeps: all but `pc` and the call stack (R101, R103). -/
def SameOutsidePcStack (s t : State) : Prop :=
  SameV s t ∧ t.i = s.i ∧ SameKeys s t ∧ SameScreen s t ∧ SameTimers s t ∧ SameMemory s t ∧ SameInputs s t

theorem sameOutsidePcStack_update (s : State) (w : Word) (sp : Fin 17) (stack : Vector Word 16) :
    SameOutsidePcStack s { s with pc := w, sp := sp, stack := stack } :=
  ⟨fun _ => rfl, rfl, fun _ => rfl, fun _ _ => rfl, ⟨rfl, rfl⟩, fun _ => rfl, rfl, rfl, rfl⟩

/-! ## A return to the entry at a known depth -/

theorem exec_ret_of_top (t : State) (target : Word) (depth : Fin 17) (below : depth.val < 16)
    (sp_eq : t.sp.val = depth.val + 1) (top : t.stack[depth.val] = target) :
    ∃ w, exec .ret t = .next w ∧ w.pc = target ∧ w.sp = depth := by
  refine ⟨_, execRet_ok t (by omega), ?_, Fin.ext ?_⟩
  · simp only [sp_eq, Nat.add_sub_cancel, top]
  · simp only [sp_eq, Nat.add_sub_cancel]

/-! ## `pc` after a skip, by the comparison of the two bytes as numbers -/

theorem skipIf_beq_pc (s : State) (a b : Byte) :
    (s.skipIf (a == b)).pc = if a.toNat = b.toNat then s.pc + 2 else s.pc := by
  simp [BitVec.toNat_inj]

theorem skipIf_bne_pc (s : State) (a b : Byte) :
    (s.skipIf (a != b)).pc = if a.toNat = b.toNat then s.pc else s.pc + 2 := by
  simp [BitVec.toNat_inj]

/-! ## The STEP of a word that decodes -/

theorem stepWith_of_decodes (r : Byte) (s : State) (i : Instr) (inRange : s.pc.toNat ≤ 0xFFE)
    (decodes : decodeWord s.wordAtPc = .ok i) : stepWith r s = exec i (s.fetched r) := by
  have fetched : fetch s = .ok s.wordAtPc := fetch_ok s inRange
  simp only [stepWith, fetched, decodes]

/-- A STEP whose instruction raises an error leaves the state as after the fetch only (60_exceptions.md R218). -/
theorem transactStep_of_exec_fault (r : Byte) (s : State) (i : Instr) (f : Fault) (w : Word)
    (inRange : s.pc.toNat ≤ 0xFFE) (decodes : decodeWord s.wordAtPc = .ok i)
    (raises : exec i (s.fetched r) = .fault f) (recordsWord : f.op = some w) :
    transactStep r s = ({ s with pc := s.pc + 2 }, .err f) := by
  have faults : stepWith r s = .fault f := (stepWith_of_decodes r s i inRange decodes).trans raises
  simp only [transactStep, faults, State.afterErr, recordsWord]
  rfl

/-- The fetch address, from the `pc` of the execute phase (00_scope.md R11). -/
theorem fetched_pc_sub_two (s : State) (r : Byte) : (s.fetched r).pc - 2 = s.pc := by
  rw [State.fetched_pc, BitVec.add_sub_cancel]

theorem decodeWord_encode_call (nnn : Addr12) : decodeWord (encode (.call nnn)) = .ok (.call nnn) := by
  simp [encode, decodeWord]

theorem decodeWord_encode_ret : decodeWord (encode .ret) = .ok .ret := by
  decide

theorem wordAtPc_eq_zero (s : State) (hi : s.byte s.pc.toNat = 0) (lo : s.byte (s.pc.toNat + 1) = 0) :
    s.wordAtPc = 0 := by
  rw [State.wordAtPc, hi, lo]
  rfl

/-! ## The obligations -/

/-- Settles O20: both instructions update `pc` alone, and 0xFFF is the first `pc` no fetch accepts. -/
theorem nopAndJumpResults : Obligations.NopAndJumpResults := by
  intro s
  refine ⟨⟨s, rfl, rfl, sameOutsidePc_setPc s s.pc⟩, fun nnn => ?_⟩
  refine ⟨_, rfl, addressOperand_toNat nnn, sameOutsidePc_setPc s _, ?_⟩
  rintro rfl
  exact fetch_error (s.setPc (addressOperand 0xFFF)) (le_refl 0xFFF)

/-- Settles O22: the slot CALL writes is the one RET reads, at the old SP. -/
theorem callPushesTheReturnAddress : Obligations.CallPushesTheReturnAddress := by
  intro s nnn
  refine ⟨fun free => ?_, fun full => execCall_error s nnn full, fun u r full inRange isCall => ?_⟩
  · obtain ⟨sameV, sameI, sameKeys, sameScreen, sameTimers, sameMemory, sameInputs⟩ :=
      sameOutsidePcStack_update s (addressOperand nnn) ⟨s.sp.val + 1, by omega⟩ (s.stack.set s.sp.val s.pc free)
    refine ⟨_, execCall_ok s nnn free, addressOperand_toNat nnn, rfl, Vector.getElem_set_self free, fun j other => ?_,
      sameV, sameI, sameKeys, sameScreen, sameTimers, sameMemory, sameInputs,
      exec_ret_of_top _ s.pc s.sp free rfl (Vector.getElem_set_self free)⟩
    exact Vector.getElem_set_ne free j.isLt (Ne.symm other)
  · have raises := execCall_error (u.fetched r) nnn full
    rw [fetched_pc_sub_two] at raises
    exact transactStep_of_exec_fault r u (.call nnn) _ _ inRange (isCall ▸ decodeWord_encode_call nnn) raises rfl

/-- Settles O23: RET moves SP and `pc` alone, and takes any slot value as `pc`. -/
theorem returnPopsTheTopEntry : Obligations.ReturnPopsTheTopEntry := by
  intro s
  refine ⟨fun nonempty => ?_, fun empty => execRet_error s empty, fun u r empty inRange isRet => ?_⟩
  · obtain ⟨sameV, sameI, sameKeys, sameScreen, sameTimers, sameMemory, sameInputs⟩ :=
      sameOutsidePcStack_update s (s.stack[s.sp.val - 1]'(by omega)) ⟨s.sp.val - 1, by omega⟩ s.stack
    exact ⟨_, execRet_ok s nonempty, rfl, Nat.sub_add_cancel nonempty, fun _ => rfl,
      sameV, sameI, sameKeys, sameScreen, sameTimers, sameMemory, sameInputs, fetch_error _⟩
  · have raises := execRet_error (u.fetched r) empty
    rw [fetched_pc_sub_two] at raises
    exact transactStep_of_exec_fault r u .ret _ _ inRange (isRet ▸ decodeWord_encode_ret) raises rfl

/-- Settles O25: each skip is `skipIf` of its comparison, so only `pc` moves and the skipped word is never read. -/
theorem registerSkipResults : Obligations.RegisterSkipResults := by
  intro s x y nn
  refine ⟨?seImm, ?sneImm, ?seReg, ?sneReg⟩
  case seImm => exact ⟨_, rfl, sameOutsidePc_skipIf s _, fetch_error _, skipIf_beq_pc s _ _⟩
  case sneImm => exact ⟨_, rfl, sameOutsidePc_skipIf s _, fetch_error _, skipIf_bne_pc s _ _⟩
  case seReg => exact ⟨_, rfl, sameOutsidePc_skipIf s _, skipIf_beq_pc s _ _⟩
  case sneReg => exact ⟨_, rfl, sameOutsidePc_skipIf s _, skipIf_bne_pc s _ _⟩

/-- Settles O60: the zero word decodes to NOP, so the next state is the one NOP was given. -/
theorem stepOverZeroedMemoryOnlyAdvances : Obligations.StepOverZeroedMemoryOnlyAdvances := by
  intro s inRange hi lo
  have decodes : decodeWord s.takeRnd.wordAtPc = .ok .nop := by
    rw [wordAtPc_eq_zero s.takeRnd hi lo]
    decide
  have advances : (s.pc + 2).toNat = s.pc.toNat + 2 := by
    rw [BitVec.toNat_add]
    exact Nat.mod_eq_of_lt (show s.pc.toNat + 2 < 65536 by omega)
  exact ⟨_, stepWith_of_decodes s.nextRnd s.takeRnd .nop inRange decodes, advances, fun _ => rfl, rfl,
    ⟨rfl, fun _ => rfl⟩, fun _ => rfl, fun _ _ => rfl, ⟨rfl, rfl⟩, fun _ => rfl, rfl, rfl, rfl⟩

end Sys2Proof.Proofs.ControlFlow

/-!
PROOFS of the statements of 41_alu.md: the results of the loads and the arithmetic, the flag, and what they leave alone.
-/

namespace Sys2Proof.Proofs.Alu

open Sys2Proof.Machine

/-! ## Frames of the two updates an ALU instruction makes -/

theorem sameVBut_setV (s : State) (x : Nibble) (b : Byte) : SameVBut [x] s (s.setV x b) :=
  fun _ other => State.getV_setV_ne s b (List.ne_of_not_mem_cons other)

theorem sameOutsideVPc_setV (s : State) (x : Nibble) (b : Byte) : SameOutsideVPc s (s.setV x b) :=
  ⟨rfl, ⟨rfl, fun _ => rfl⟩, fun _ => rfl, fun _ _ => rfl, ⟨rfl, rfl⟩, fun _ => rfl, rfl, rfl, rfl⟩

/-- Everything an instruction with destination VX and a flag keeps: the other registers, `pc`, and the rest of the
state (R22). -/
theorem setVFlag_frame (s : State) (x : Nibble) (b flag : Byte) :
    SameVBut [x, 0xF] s (s.setVFlag x b flag) ∧ (s.setVFlag x b flag).pc = s.pc ∧
      SameOutsideVPc s (s.setVFlag x b flag) := by
  refine ⟨fun r other => ?_, rfl, sameOutsideVPc_setV s x b⟩
  obtain ⟨notX, notF⟩ : r ≠ x ∧ r ≠ 0xF#4 := by simpa using other
  rw [State.getV_setVFlag, if_neg notF, if_neg notX]

/-! ## The writes of an addition and of a subtraction -/

/-- `State.getV_setVFlag_regF` with F spelled as the obligations spell it. -/
theorem getV_setVFlag_F (s : State) (x : Nibble) (b flag : Byte) : (s.setVFlag x b flag).getV 0xF = flag :=
  State.getV_setVFlag_regF s x b flag

theorem setV_addByte_toNat (s : State) (x : Nibble) (a b : Byte) :
    ((s.setV x (addByte a b)).getV x).toNat = (a.toNat + b.toNat) % 256 := by
  rw [State.getV_setV_self, addByte_toNat]

/-- What the subtraction `a − b` into VX leaves in VX and VF; 8XY5 and 8XY7 differ in the order of the operands alone
(R137, R139). -/
theorem setVFlag_subByte_results (s : State) (x : Nibble) (a b : Byte) :
    (x ≠ 0xF → (((s.setVFlag x (subByte a b) (noBorrowFlag a b)).getV x).toNat : Int) =
      (a.toNat - b.toNat : Int) % 256) ∧
    ((s.setVFlag x (subByte a b) (noBorrowFlag a b)).getV 0xF).toNat = if a.toNat < b.toNat then 0 else 1 := by
  refine ⟨fun notF => ?_, ?_⟩
  · rw [State.getV_setVFlag_self s _ _ notF, subByte_toNat]
  · rw [getV_setVFlag_F, noBorrowFlag_toNat]

/-! ## The obligations -/

/-- Settles O27: both instructions are one `setV`, and the second adds to what the first loaded. -/
theorem loadAndAddImmediateResults : Obligations.LoadAndAddImmediateResults := by
  intro s x nn nn2
  refine ⟨⟨_, rfl, State.getV_setV_self s x nn, sameVBut_setV s x nn, rfl, sameOutsideVPc_setV s x nn, ?thenAdd⟩, ?add⟩
  case thenAdd => exact ⟨_, rfl, by rw [setV_addByte_toNat, State.getV_setV_self]⟩
  case add => exact ⟨_, rfl, setV_addByte_toNat s x _ nn, sameVBut_setV s x _, rfl, sameOutsideVPc_setV s x _⟩

/-- Settles O29: VF is written last, so the carry stands in it whatever X is, and the sum in VX unless X = 0xF. -/
theorem addRegistersSetsCarry : Obligations.AddRegistersSetsCarry := by
  intro s x y
  refine ⟨_, rfl, fun notF => ?sum, ?carry, setVFlag_frame s x _ _⟩
  case sum => rw [State.getV_setVFlag_self s _ _ notF, addByte_toNat]
  case carry => rw [getV_setVFlag_F, carryFlag_toNat]

/-- Settles O30: both instructions write one subtraction and its no-borrow flag, each in its order of the operands. -/
theorem subtractSetsNoBorrow : Obligations.SubtractSetsNoBorrow := by
  intro s x y
  refine ⟨?subReg, ?subnReg⟩
  case subReg =>
    obtain ⟨difference, noBorrow⟩ := setVFlag_subByte_results s x (s.getV x) (s.getV y)
    exact ⟨_, rfl, difference, noBorrow, setVFlag_frame s x _ _⟩
  case subnReg =>
    obtain ⟨difference, noBorrow⟩ := setVFlag_subByte_results s x (s.getV y) (s.getV x)
    exact ⟨_, rfl, difference, noBorrow, setVFlag_frame s x _ _⟩

end Sys2Proof.Proofs.Alu

/-!
PROOFS of the statements of 42_index_memory.md: the loads of I and what they leave alone.
-/

namespace Sys2Proof.Proofs.IndexMemory

open Sys2Proof.Machine

/-- Everything an instruction that writes I alone keeps (R160 to R162). -/
def SameOutsideI (s t : State) : Prop :=
  t.pc = s.pc ∧ SameV s t ∧ SameStack s t ∧ SameKeys s t ∧ SameScreen s t ∧ SameTimers s t ∧ SameMemory s t ∧
    SameInputs s t

theorem sameOutsideI_setI (s : State) (w : Word) : SameOutsideI s (s.setI w) :=
  ⟨rfl, State.setI_getV s w, ⟨rfl, fun _ => rfl⟩, State.setI_keyDown s w, State.setI_pixel s w, ⟨rfl, rfl⟩,
    State.setI_byte s w, rfl, rfl, rfl⟩

/-- Settles O35: both instructions are one `setI`, of operands that fit in 16 bits without a mask. -/
theorem indexLoadAndGlyphAddressResults : Obligations.IndexLoadAndGlyphAddressResults := by
  intro s x nnn
  refine ⟨?ldI, ?ldF⟩
  case ldI => exact ⟨_, rfl, addressOperand_toNat nnn, sameOutsideI_setI s _⟩
  case ldF => exact ⟨_, rfl, glyphAddress_toNat (s.getV x), sameOutsideI_setI s _⟩

end Sys2Proof.Proofs.IndexMemory

/-!
PROOFS of the statements of 43_graphics.md: clearing the framebuffer and what it leaves alone.
-/

namespace Sys2Proof.Proofs.Graphics

open Sys2Proof.Machine

/-- Everything an instruction that writes the framebuffer alone keeps (R180). -/
def SameOutsideScreen (s t : State) : Prop :=
  t.pc = s.pc ∧ SameV s t ∧ t.i = s.i ∧ SameStack s t ∧ SameKeys s t ∧ SameTimers s t ∧ SameMemory s t ∧
    SameInputs s t

theorem sameOutsideScreen_setFb (s : State) (fb : Framebuffer) : SameOutsideScreen s (s.setFb fb) :=
  ⟨rfl, State.setFb_getV s fb, rfl, ⟨rfl, fun _ => rfl⟩, State.setFb_keyDown s fb, ⟨rfl, rfl⟩, State.setFb_byte s fb,
    rfl, rfl, rfl⟩

theorem pixel_setFb (s : State) (fb : Framebuffer) (x : Fin 64) (y : Fin 32) :
    (s.setFb fb).pixel x y = fb.pixel x y := rfl

theorem pixel_setFb_clear (s : State) (x : Fin 64) (y : Fin 32) :
    (s.setFb Framebuffer.clear).pixel x y = false := by
  rw [pixel_setFb, Framebuffer.pixel_clear]

/-- Settles O45: CLS is one `setFb`, of the framebuffer in which every pixel is off. -/
theorem clearScreenTurnsEveryPixelOff : Obligations.ClearScreenTurnsEveryPixelOff := by
  intro s
  exact ⟨_, rfl, pixel_setFb_clear s, sameOutsideScreen_setFb s Framebuffer.clear⟩

end Sys2Proof.Proofs.Graphics

/-!
PROOFS of the statements of 44_input_timers.md: the timer instructions with the TICK after them, the wait for a key, and
what they leave alone.
-/

namespace Sys2Proof.Proofs.InputTimers

open Sys2Proof.Machine

/-! ## Frames of the updates -/

/-- Everything an instruction that writes a timer alone keeps, the other timer aside (R194, R195). -/
def SameOutsideTimers (s t : State) : Prop :=
  t.pc = s.pc ∧ SameV s t ∧ t.i = s.i ∧ SameStack s t ∧ SameKeys s t ∧ SameScreen s t ∧ SameMemory s t ∧ SameInputs s t

theorem sameOutsideTimers_setDt (s : State) (b : Byte) : SameOutsideTimers s (s.setDt b) :=
  ⟨rfl, State.setDt_getV s b, rfl, ⟨rfl, fun _ => rfl⟩, State.setDt_keyDown s b, State.setDt_pixel s b,
    State.setDt_byte s b, rfl, rfl, rfl⟩

theorem sameOutsideTimers_setSt (s : State) (b : Byte) : SameOutsideTimers s (s.setSt b) :=
  ⟨rfl, State.setSt_getV s b, rfl, ⟨rfl, fun _ => rfl⟩, State.setSt_keyDown s b, State.setSt_pixel s b,
    State.setSt_byte s b, rfl, rfl, rfl⟩

theorem sameOutsidePc_rewindPc (s : State) : SameOutsidePc s s.rewindPc :=
  ControlFlow.sameOutsidePc_setPc s (s.pc - 2)

/-! ## The sound output (60_exceptions.md R225) -/

theorem soundActive_setSt (s : State) (b : Byte) : (s.setSt b).soundActive = decide (b.toNat ≠ 0) := by
  simp only [State.soundActive, State.setSt_st, gt_iff_lt, Nat.pos_iff_ne_zero]

/-- ST after a TICK is the predecessor of ST, so a value of 1 is silent by then. -/
theorem soundActive_tick (s : State) : s.tick.soundActive = decide (s.st.toNat ≥ 2) := by
  have longEnough : s.st.toNat - 1 > 0 ↔ s.st.toNat ≥ 2 := by omega
  simp only [State.soundActive, State.tick_st, countDown_toNat, longEnough]

/-! ## The two outcomes of FX0A (R193) -/

theorem execLdVxK_latched {s : State} {k : Nibble} (x : Nibble) (lowest : s.lowestKey = some k) :
    exec (.ldVxK x) s = .next (s.setV x (BitVec.ofNat 8 k.toNat)) := by
  simp only [exec, execLdVxK, lowest]

theorem execLdVxK_waiting {s : State} (x : Nibble) (noKey : s.lowestKey = none) :
    exec (.ldVxK x) s = .next s.rewindPc := by
  simp only [exec, execLdVxK, noKey]

theorem keyIndexByte_toNat (k : Nibble) : (BitVec.ofNat 8 k.toNat).toNat = k.toNat := by
  rw [BitVec.toNat_ofNat]
  omega

/-! ## The obligations -/

/-- Settles O49: FX07 is one `setV`, FX15 one `setDt` and FX18 one `setSt`; the TICK after them is `countDown`. -/
theorem timerInstructionResults : Obligations.TimerInstructionResults := by
  intro s x
  refine ⟨?ldVxDt, ?ldDtVx, ?ldStVx⟩
  case ldVxDt =>
    exact ⟨_, rfl, State.getV_setV_self s x s.dt, Alu.sameVBut_setV s x s.dt, rfl, Alu.sameOutsideVPc_setV s x s.dt⟩
  case ldDtVx => exact ⟨_, rfl, rfl, rfl, countDown_toNat (s.getV x), sameOutsideTimers_setDt s (s.getV x)⟩
  case ldStVx =>
    exact ⟨_, rfl, rfl, rfl, soundActive_setSt s (s.getV x), soundActive_tick (s.setSt (s.getV x)),
      sameOutsideTimers_setSt s (s.getV x)⟩

/-- Settles O50: the scan finds the lowest latched key exactly when a key is latched. -/
theorem blockOnKeyTakesTheLowestKeyOrRewinds : Obligations.BlockOnKeyTakesTheLowestKeyOrRewinds := by
  intro s x
  refine ⟨fun k latched noneLower => ?_, fun noneLatched => ?_⟩
  · have lowest : s.lowestKey = some k := (State.lowestKey_some s k).mpr ⟨latched, noneLower⟩
    refine ⟨_, execLdVxK_latched x lowest, ?_, Alu.sameVBut_setV s x _, rfl, Alu.sameOutsideVPc_setV s x _⟩
    rw [State.getV_setV_self, keyIndexByte_toNat]
  · have noKey : s.lowestKey = none := (State.lowestKey_none s).mpr noneLatched
    exact ⟨_, execLdVxK_waiting x noKey, rfl, sameOutsidePc_rewindPc s⟩

end Sys2Proof.Proofs.InputTimers

/-!
PROOFS of the statements of 60_exceptions.md: which words no STEP executes, what every error records, and the TICKs.
-/

namespace Sys2Proof.Proofs.Exceptions

open Sys2Proof.Machine

/-! ## A word that decodes is the encoding of its instruction (log entry 6) -/

section EncodeOfDecode

variable {w : Word} {i : Instr}

theorem layoutA_of_fields {d1 : Nibble} (h1 : digit1 w = d1) : layoutA d1 (low12 w) = w :=
  h1 ▸ layoutA_fields w

theorem layoutXK_of_fields {d1 : Nibble} {nn : Byte} (h1 : digit1 w = d1) (hnn : lowByte w = nn) :
    layoutXK d1 (digit2 w) nn = w :=
  h1 ▸ hnn ▸ layoutXK_fields w

theorem layoutXY_of_fields {d1 d4 : Nibble} (h1 : digit1 w = d1) (h4 : digit4 w = d4) :
    layoutXY d1 (digit2 w) (digit3 w) d4 = w :=
  h1 ▸ h4 ▸ layoutXY_fields w

/-! Each chain of tests below reaches an instruction on the branch whose test names its selector, so word and encoding
agree in every field. -/

theorem encode_of_decodeZero (h : decodeZero w = .ok i) : encode i = w := by
  unfold decodeZero at h
  repeat' split at h
  all_goals cases h
  all_goals exact Eq.symm ‹w = _›

theorem encode_of_decodeAlu (h1 : digit1 w = 0x8#4) (h : decodeAlu w = .ok i) : encode i = w := by
  unfold decodeAlu at h
  repeat' split at h
  all_goals cases h
  all_goals exact layoutXY_of_fields h1 ‹_›

theorem encode_of_decodeKey (h1 : digit1 w = 0xE#4) (h : decodeKey w = .ok i) : encode i = w := by
  unfold decodeKey at h
  repeat' split at h
  all_goals cases h
  all_goals exact layoutXK_of_fields h1 ‹_›

theorem encode_of_decodeMisc (h1 : digit1 w = 0xF#4) (h : decodeMisc w = .ok i) : encode i = w := by
  unfold decodeMisc at h
  repeat' split at h
  all_goals cases h
  all_goals exact layoutXK_of_fields h1 ‹_›

/-- 5XY0 and 9XY0: the decoder answers the instruction it was given when d4 is 0. -/
theorem decodeSkipRegister_ok {j : Instr} (h : decodeSkipRegister w j = .ok i) : j = i ∧ digit4 w = 0x0#4 := by
  unfold decodeSkipRegister at h
  split at h
  · exact ⟨Except.ok.inj h, ‹_›⟩
  · cases h

/-- The sixteen families of R75, in the order of d1. -/
theorem encode_of_decodeWord (h : decodeWord w = .ok i) : encode i = w := by
  rcases nibble_cases (digit1 w) with h1 | h1 | h1 | h1 | h1 | h1 | h1 | h1 | h1 | h1 | h1 | h1 | h1 | h1 | h1 | h1
  all_goals simp only [decodeWord, h1, BitVec.reduceEq, if_true, if_false] at h
  · exact encode_of_decodeZero h
  · cases h; exact layoutA_of_fields h1
  · cases h; exact layoutA_of_fields h1
  · cases h; exact layoutXK_of_fields h1 rfl
  · cases h; exact layoutXK_of_fields h1 rfl
  · obtain ⟨rfl, h4⟩ := decodeSkipRegister_ok h; exact layoutXY_of_fields h1 h4
  · cases h; exact layoutXK_of_fields h1 rfl
  · cases h; exact layoutXK_of_fields h1 rfl
  · exact encode_of_decodeAlu h1 h
  · obtain ⟨rfl, h4⟩ := decodeSkipRegister_ok h; exact layoutXY_of_fields h1 h4
  · cases h; exact layoutA_of_fields h1
  · cases h; exact layoutA_of_fields h1
  · cases h; exact layoutXK_of_fields h1 rfl
  · cases h; exact layoutXY_of_fields h1 rfl
  · exact encode_of_decodeKey h1 h
  · exact encode_of_decodeMisc h1 h

end EncodeOfDecode

/-! ## A word decodes exactly when it matches a row (30_encoding.md R75 to R77) -/

open Sys2Proof.Laws.EncodeMatchesRow in
theorem encode_matches_own_row : ∀ i : Instr, Statement i
  | .nop => nop | .cls => cls | .ret => ret | .jp _ => jp _ | .call _ => call _ | .seImm _ _ => seImm _ _
  | .sneImm _ _ => sneImm _ _ | .seReg _ _ => seReg _ _ | .ldImm _ _ => ldImm _ _ | .addImm _ _ => addImm _ _
  | .ldReg _ _ => ldReg _ _ | .orReg _ _ => orReg _ _ | .andReg _ _ => andReg _ _ | .xorReg _ _ => xorReg _ _
  | .addReg _ _ => addReg _ _ | .subReg _ _ => subReg _ _ | .shr _ _ => shr _ _ | .subnReg _ _ => subnReg _ _
  | .shl _ _ => shl _ _ | .sneReg _ _ => sneReg _ _ | .ldI _ => ldI _ | .jpV0 _ => jpV0 _ | .rnd _ _ => rnd _ _
  | .drw _ _ _ => drw _ _ _ | .skp _ => skp _ | .sknp _ => sknp _ | .ldVxDt _ => ldVxDt _ | .ldVxK _ => ldVxK _
  | .ldDtVx _ => ldDtVx _ | .ldStVx _ => ldStVx _ | .addI _ => addI _ | .ldF _ => ldF _ | .ldB _ => ldB _
  | .stRegs _ => stRegs _ | .ldRegs _ => ldRegs _

/-- A field the mask of a row covers whole is the pattern's own in a word that matches the row. -/
theorem field_of_matches {w : Word} {row : OpcodeRow} {start len : Nat} (h : row.matches w = true)
    (covered : row.mask.extractLsb' start len = BitVec.allOnes len) :
    w.extractLsb' start len = row.pattern.extractLsb' start len := by
  rw [← beq_iff_eq.mp h, BitVec.extractLsb'_and, covered, BitVec.and_allOnes]

theorem word_of_matches {w : Word} {row : OpcodeRow} (h : row.matches w = true)
    (covered : row.mask = BitVec.allOnes 16) : w = row.pattern := by
  rw [← beq_iff_eq.mp h, covered, BitVec.and_allOnes]

/-- The families told by d1 alone, by the whole word (0), or by d4 = 0 (5 and 9). -/
theorem decodeWord_ok_of_matches_main (w : Word) :
    ∀ row ∈ opcodeRowsMain, row.matches w = true → ∃ i, decodeWord w = .ok i := by
  intro row mem h
  have masks : ∀ row ∈ opcodeRowsMain, row.mask.extractLsb' 12 4 = BitVec.allOnes 4 := by decide
  have h1 : digit1 w = _ := field_of_matches h (masks row mem)
  have h4 : row.mask.extractLsb' 0 4 = BitVec.allOnes 4 → digit4 w = _ := field_of_matches h
  simp only [opcodeRowsMain, List.cons_append, List.nil_append, List.mem_cons, List.not_mem_nil, or_false] at mem
  rcases mem with rfl | rfl | rfl | rfl | rfl | rfl | rfl | rfl | rfl | rfl | rfl | rfl | rfl | rfl | rfl
  · exact ⟨.nop, by rw [word_of_matches h rfl]; rfl⟩
  · exact ⟨.cls, by rw [word_of_matches h rfl]; rfl⟩
  · exact ⟨.ret, by rw [word_of_matches h rfl]; rfl⟩
  all_goals simp [decodeWord, decodeSkipRegister, h1, h4]

/-- The family 8, told by d1 and d4. -/
theorem decodeWord_ok_of_matches_alu (w : Word) :
    ∀ row ∈ opcodeRowsAlu, row.matches w = true → ∃ i, decodeWord w = .ok i := by
  intro row mem h
  have masks : ∀ row ∈ opcodeRowsAlu, row.mask.extractLsb' 12 4 = BitVec.allOnes 4 ∧
    row.mask.extractLsb' 0 4 = BitVec.allOnes 4 := by decide
  obtain ⟨familyCovered, selectorCovered⟩ := masks row mem
  have h1 : digit1 w = _ := field_of_matches h familyCovered
  have h4 : digit4 w = _ := field_of_matches h selectorCovered
  simp only [opcodeRowsAlu, List.mem_cons, List.not_mem_nil, or_false] at mem
  rcases mem with rfl | rfl | rfl | rfl | rfl | rfl | rfl | rfl | rfl
  all_goals simp [decodeWord, decodeAlu, h1, h4]

/-- The families E and F, told by d1 and the low byte. -/
theorem decodeWord_ok_of_matches_misc (w : Word) :
    ∀ row ∈ opcodeRowsMisc, row.matches w = true → ∃ i, decodeWord w = .ok i := by
  intro row mem h
  have masks : ∀ row ∈ opcodeRowsMisc, row.mask.extractLsb' 12 4 = BitVec.allOnes 4 ∧
    row.mask.extractLsb' 0 8 = BitVec.allOnes 8 := by decide
  obtain ⟨familyCovered, selectorCovered⟩ := masks row mem
  have h1 : digit1 w = _ := field_of_matches h familyCovered
  have hnn : lowByte w = _ := field_of_matches h selectorCovered
  simp only [opcodeRowsMisc, List.mem_cons, List.not_mem_nil, or_false] at mem
  rcases mem with rfl | rfl | rfl | rfl | rfl | rfl | rfl | rfl | rfl | rfl | rfl
  all_goals simp [decodeWord, decodeKey, decodeMisc, h1, hnn]

theorem decodeWord_ok_of_matches (w : Word) (row : OpcodeRow) (mem : row ∈ opcodeTable) (h : row.matches w = true) :
    ∃ i, decodeWord w = .ok i := by
  simp only [opcodeTable, List.mem_append] at mem
  obtain (inMain | inAlu) | inMisc := mem
  · exact decodeWord_ok_of_matches_main w row inMain h
  · exact decodeWord_ok_of_matches_alu w row inAlu h
  · exact decodeWord_ok_of_matches_misc w row inMisc h

/-- The rejected words are those that match no row. -/
theorem matches_no_row_iff (w : Word) :
    (∀ row ∈ opcodeTable, row.matches w = false) ↔ ∃ e, decodeWord w = .error e := by
  refine ⟨fun noRow => ?_, fun ⟨e, rejected⟩ row mem => ?_⟩
  · cases decoded : decodeWord w with
    | error e => exact ⟨e, rfl⟩
    | ok i =>
      obtain ⟨-, row, mem, -, matchesRow⟩ := encode_matches_own_row i
      rw [encode_of_decodeWord decoded, noRow row mem] at matchesRow
      cases matchesRow
  · by_contra matchesRow
    obtain ⟨i, decoded⟩ := decodeWord_ok_of_matches w row mem (Bool.eq_true_of_not_eq_false matchesRow)
    rw [rejected] at decoded
    cases decoded

/-! ## The errors of the execute phase (60_exceptions.md R213 to R216) -/

theorem storeThroughIndex_fault {i : Instr} {bs : List Byte} {s : State} {f : Fault} (nonempty : bs ≠ [])
    (h : storeThroughIndex i bs s = .fault f) :
    f = .memoryBounds (s.pc - 2) (some (encode i)) (max s.i.toNat 0x1000) := by
  by_cases fits : s.i.toNat + bs.length ≤ 0x1000
  · obtain ⟨m, ok, -⟩ := storeThroughIndex_ok i bs s (.inr fits)
    rw [ok] at h
    cases h
  · rw [storeThroughIndex_error i bs s nonempty (by omega)] at h
    cases h
    rfl

/-- What an error of the execute phase records, and why it is raised: the fetch address and the word of the instruction,
with the stack operation, the lowest address out of range, or the register that holds no key index. -/
inductive ExecError (i : Instr) (s : State) : Fault → Prop
  | push (full : s.sp.val = 16) : ExecError i s (.stackBounds (s.pc - 2) (encode i) .push)
  | pop (empty : s.sp.val = 0) : ExecError i s (.stackBounds (s.pc - 2) (encode i) .pop)
  | address : ExecError i s (.memoryBounds (s.pc - 2) (some (encode i)) (max s.i.toNat 0x1000))
  | key {x : Nibble} (named : digit2 (encode i) = x) (noKey : (s.getV x).toNat > 0xF) :
      ExecError i s (.keyIndex (s.pc - 2) (encode i) (s.getV x))

theorem ExecError.fetchPc_eq {i : Instr} {s : State} {f : Fault} (h : ExecError i s f) : f.fetchPc = s.pc - 2 := by
  cases h <;> rfl

theorem ExecError.op_eq {i : Instr} {s : State} {f : Fault} (h : ExecError i s f) : f.op = some (encode i) := by
  cases h <;> rfl

theorem next_ne_fault {t : State} {f : Fault} : (.next t : Result) ≠ .fault f := nofun

/-- Every error of every instruction has one of the four forms of `ExecError`. -/
theorem exec_fault_cases {i : Instr} {s : State} {f : Fault} (h : exec i s = .fault f) : ExecError i s f := by
  cases i with
  | nop | cls | jp | seImm | sneImm | seReg | sneReg | jpV0 | ldImm | addImm | ldReg | orReg | andReg | xorReg
  | addReg | subReg | shr | subnReg | shl | rnd | ldI | addI | ldF | ldVxDt | ldDtVx | ldStVx =>
    exact absurd h next_ne_fault
  | ldVxK x =>
    cases lowest : s.lowestKey with
    | some k => exact absurd ((InputTimers.execLdVxK_latched x lowest).symm.trans h) next_ne_fault
    | none => exact absurd ((InputTimers.execLdVxK_waiting x lowest).symm.trans h) next_ne_fault
  | ret =>
    by_cases empty : s.sp.val = 0
    · cases (execRet_error s empty).symm.trans h
      exact .pop empty
    · exact absurd ((execRet_ok s (by omega)).symm.trans h) next_ne_fault
  | call nnn =>
    by_cases full : s.sp.val = 16
    · cases (execCall_error s nnn full).symm.trans h
      exact .push full
    · exact absurd ((execCall_ok s nnn (by omega)).symm.trans h) next_ne_fault
  | drw x y n =>
    by_cases fits : n.toNat = 0 ∨ s.i.toNat + n.toNat ≤ 0x1000
    · exact absurd ((execDrw_ok s x y n fits).symm.trans h) next_ne_fault
    · cases (execDrw_error s x y n (by omega) (by omega)).symm.trans h
      exact .address
  | ldB x =>
    cases storeThroughIndex_fault (List.cons_ne_nil _ _) h
    exact .address
  | stRegs x =>
    cases storeThroughIndex_fault (by simp [State.regsUpTo]) h
    exact .address
  | ldRegs x =>
    by_cases fits : s.i.toNat + x.toNat ≤ 0xFFF
    · exact absurd ((execLdRegs_ok s x fits).symm.trans h) next_ne_fault
    · cases (execLdRegs_error s x (by omega)).symm.trans h
      exact .address
  | skp x =>
    by_cases noKey : (s.getV x).toNat > 0xF
    · cases (execSkp_error s x noKey).symm.trans h
      exact .key (digit2_layoutXK 0xE x 0x9E) noKey
    · exact absurd ((execSkp_ok s x noKey).symm.trans h) next_ne_fault
  | sknp x =>
    by_cases noKey : (s.getV x).toNat > 0xF
    · cases (execSknp_error s x noKey).symm.trans h
      exact .key (digit2_layoutXK 0xE x 0xA1) noKey
    · exact absurd ((execSknp_ok s x noKey).symm.trans h) next_ne_fault

/-! ## The errors of a STEP (60_exceptions.md R212, R217) -/

theorem stepWith_of_rejected (r : Byte) {s : State} {e : Reject} (inRange : s.pc.toNat ≤ 0xFFE)
    (rejected : decodeWord s.wordAtPc = .error e) : stepWith r s = .fault (.decodeError s.pc s.wordAtPc) := by
  have fetched : fetch s = .ok s.wordAtPc := fetch_ok s inRange
  simp only [stepWith, fetched, rejected]
  rfl

/-- The three phases of a STEP, and the errors each can raise. -/
inductive StepError (r : Byte) (s : State) : Fault → Prop
  | fetch (pastEnd : s.pc.toNat ≥ 0xFFF) : StepError r s (.memoryBounds s.pc none (max s.pc.toNat 0x1000))
  | decode {e : Reject} (inRange : s.pc.toNat ≤ 0xFFE) (rejected : decodeWord s.wordAtPc = .error e) :
      StepError r s (.decodeError s.pc s.wordAtPc)
  | execute {i : Instr} {f : Fault} (inRange : s.pc.toNat ≤ 0xFFE) (decodes : decodeWord s.wordAtPc = .ok i)
      (raised : ExecError i (s.fetched r) f) : StepError r s f

theorem stepWith_fault_cases {r : Byte} {s : State} {f : Fault} (h : stepWith r s = .fault f) : StepError r s f := by
  obtain ⟨pastEnd, faults⟩ | ⟨inRange, op, fetched, outcome⟩ := stepWith_cases r s
  · cases faults.symm.trans h
    exact .fetch pastEnd
  · obtain rfl : s.wordAtPc = op := Except.ok.inj ((fetch_ok s inRange).symm.trans fetched)
    obtain ⟨e, rejected, faults⟩ | ⟨i, decodes, runs⟩ := outcome
    · cases faults.symm.trans h
      exact .decode inRange rejected
    · exact .execute inRange decodes (exec_fault_cases (runs.symm.trans h))

/-! ## Any number of TICKs (60_exceptions.md R223) -/

/-- TICKs act on the two timers alone, and on each by itself. -/
theorem iterate_tick (n : Nat) (s : State) :
    State.tick^[n] s = { s with dt := countDown^[n] s.dt, st := countDown^[n] s.st } := by
  induction n generalizing s with
  | zero => rfl
  | succ n ih => rw [Function.iterate_succ_apply, ih]; rfl

theorem iterate_countDown_toNat (n : Nat) (b : Byte) : (countDown^[n] b).toNat = b.toNat - n := by
  induction n with
  | zero => rfl
  | succ n ih => rw [Function.iterate_succ_apply', countDown_toNat, ih, Nat.sub_sub]

/-! ## The obligations -/

/-- Settles O9: a word matches no row exactly when the decoder rejects it, and only the decode phase raises a
DecodeError. -/
theorem unrecognisedWordIsADecodeError : Obligations.UnrecognisedWordIsADecodeError := by
  intro s r inRange
  rw [matches_no_row_iff]
  refine ⟨⟨fun ⟨_, rejected⟩ => stepWith_of_rejected r inRange rejected, fun raises => ?_⟩, fun ⟨_, rejected⟩ => ?_⟩
  · cases stepWith_fault_cases raises with
    | decode _ rejected => exact ⟨_, rejected⟩
    | execute _ _ raised => cases raised
  · simp only [transactStep, stepWith_of_rejected r inRange rejected]
    rfl

/-- Settles O53: n TICKs are n down counts of each timer, with every other field as it was. -/
theorem ticksCountBothTimersDownToZero : Obligations.TicksCountBothTimersDownToZero := by
  intro n s
  rw [iterate_tick]
  exact ⟨iterate_countDown_toNat n s.dt, iterate_countDown_toNat n s.st, rfl, fun _ => rfl, rfl, ⟨rfl, fun _ => rfl⟩,
    fun _ => rfl, fun _ _ => rfl, fun _ => rfl, rfl, rfl, rfl⟩

/-- Settles O59: each phase of a STEP records its own fields, the execute phase those of `ExecError`; the recorded word
is the fetched one because a word that decodes is the encoding of its instruction. -/
theorem everyErrorRecordsItsInformation : Obligations.EveryErrorRecordsItsInformation := by
  intro font t s info h
  obtain ⟨r, f, rfl, faults, rfl⟩ | ⟨bytes, rfl, tooLong, rfl⟩ := errorInfo_cases h
  · refine .inl ⟨r, rfl, ?_⟩
    cases stepWith_fault_cases faults with
    | fetch pastEnd =>
      simp only [if_pos pastEnd]
      exact ⟨rfl, rfl, .inr (.inl ⟨rfl, rfl, rfl, rfl⟩)⟩
    | decode inRange _ =>
      simp only [if_neg (show ¬ s.pc.toNat ≥ 0xFFF by omega)]
      exact ⟨rfl, rfl, .inl ⟨rfl, rfl, rfl, rfl⟩⟩
    | execute inRange decodes raised =>
      simp only [if_neg (show ¬ s.pc.toNat ≥ 0xFFF by omega), ← encode_of_decodeWord decodes]
      refine ⟨?fetchPc, raised.op_eq, ?kind⟩
      case fetchPc => exact congrArg some (raised.fetchPc_eq.trans (ControlFlow.fetched_pc_sub_two s r))
      case kind =>
        cases raised with
        | push full => exact .inr (.inr (.inl ⟨rfl, rfl, rfl, .inl ⟨rfl, full⟩⟩))
        | pop empty => exact .inr (.inr (.inl ⟨rfl, rfl, rfl, .inr ⟨rfl, empty⟩⟩))
        | address => exact .inr (.inl ⟨rfl, rfl, rfl, rfl⟩)
        | key named noKey =>
          rw [named]
          exact .inr (.inr (.inr ⟨rfl, rfl, rfl, rfl, noKey⟩))
  · exact .inr ⟨bytes, rfl, tooLong, rfl, rfl, rfl, rfl, rfl, rfl⟩

end Sys2Proof.Proofs.Exceptions

/-!
PROOFS of the statements on decoding: the round trips, the illegal words and the opcode table (30_encoding.md R72 to
R78).
-/

namespace Sys2Proof.Proofs.RoundTrip

open Sys2Proof.Machine

/-! ## Decoding an encoding, family by family -/

theorem decodeWord_layoutXY_alu (x y d4 : Nibble) :
    decodeWord (layoutXY 0x8 x y d4) = decodeAlu (layoutXY 0x8 x y d4) := by
  simp [decodeWord]

theorem decodeWord_layoutXK_key (x : Nibble) (nn : Byte) :
    decodeWord (layoutXK 0xE x nn) = decodeKey (layoutXK 0xE x nn) := by
  simp [decodeWord]

theorem decodeWord_layoutXK_misc (x : Nibble) (nn : Byte) :
    decodeWord (layoutXK 0xF x nn) = decodeMisc (layoutXK 0xF x nn) := by
  simp [decodeWord]

/-- The fields a layout was built from are the ones the decoder's tests read. -/
theorem decodeWord_encode (i : Instr) : decodeWord (encode i) = .ok i := by
  cases i with
  | nop | cls | ret => decide
  | jp | call | ldI | jpV0 | seImm | sneImm | ldImm | addImm | rnd | drw => simp [encode, decodeWord]
  | seReg | sneReg => simp [encode, decodeWord, decodeSkipRegister]
  | ldReg | orReg | andReg | xorReg | addReg | subReg | shr | subnReg | shl =>
    rw [encode, decodeWord_layoutXY_alu]
    simp [decodeAlu]
  | skp | sknp =>
    rw [encode, decodeWord_layoutXK_key]
    simp [decodeKey]
  | ldVxDt | ldVxK | ldDtVx | ldStVx | addI | ldF | ldB | stRegs | ldRegs =>
    rw [encode, decodeWord_layoutXK_misc]
    simp [decodeMisc]

/-- The decoder reads the two bytes at the head of a list as one word and leaves the rest. -/
theorem decode_bytesOfWord_append {w : Word} {i : Instr} (decodes : decodeWord w = .ok i) (rest : List Byte) :
    decode (bytesOfWord w ++ rest) = .ok (i, rest) := by
  obtain ⟨hi, lo, bytes, rfl⟩ := bytesOfWord_eq w
  simp only [bytes, List.cons_append, List.nil_append, decode, decodes]

/-! ## The rejected words of each family (R77) -/

section Rejected

variable (w : Word)

theorem decodeZero_rejects_iff : (∃ e, decodeZero w = .error e) ↔ w.toNat ∉ [0x0000, 0x00E0, 0x00EE] := by
  simp only [decodeZero, ← BitVec.toNat_inj]
  repeat' split
  all_goals simp_all

theorem decodeSkipRegister_rejects_iff (i : Instr) :
    (∃ e, decodeSkipRegister w i = .error e) ↔ w.toNat % 16 ≠ 0 := by
  simp only [decodeSkipRegister, ← BitVec.toNat_inj, digit4_toNat]
  split
  all_goals simp_all

theorem decodeAlu_rejects_iff :
    (∃ e, decodeAlu w = .error e) ↔ w.toNat % 16 ∈ [0x8, 0x9, 0xA, 0xB, 0xC, 0xD, 0xF] := by
  have d4_lt : w.toNat % 16 < 16 := Nat.mod_lt _ (by decide)
  simp only [decodeAlu, ← BitVec.toNat_inj, digit4_toNat]
  interval_cases w.toNat % 16 <;> simp

theorem decodeKey_rejects_iff : (∃ e, decodeKey w = .error e) ↔ w.toNat % 256 ∉ [0x9E, 0xA1] := by
  simp only [decodeKey, ← BitVec.toNat_inj, lowByte_toNat]
  repeat' split
  all_goals simp_all

theorem decodeMisc_rejects_iff :
    (∃ e, decodeMisc w = .error e) ↔ w.toNat % 256 ∉ [0x07, 0x0A, 0x15, 0x18, 0x1E, 0x29, 0x33, 0x55, 0x65] := by
  simp only [decodeMisc, ← BitVec.toNat_inj, lowByte_toNat]
  repeat' split
  all_goals simp_all

/-- R77, with the word's first digit telling which of the five bullets can apply. -/
theorem decodeWord_rejects_iff : (∃ e, decodeWord w = .error e) ↔ IllegalWord w := by
  have d1 : w.toNat / 4096 = (digit1 w).toNat := (digit1_toNat w).symm
  rcases nibble_cases (digit1 w) with h | h | h | h | h | h | h | h | h | h | h | h | h | h | h | h
  all_goals
    simp only [decodeWord, IllegalWord, d1, h, BitVec.reduceEq, if_true, if_false]
    simp [decodeZero_rejects_iff, decodeSkipRegister_rejects_iff, decodeAlu_rejects_iff, decodeKey_rejects_iff,
      decodeMisc_rejects_iff]

end Rejected

/-! ## No word matches two rows -/

/-- Two rows of the table differ in a bit that both their masks keep. -/
theorem rows_disjoint : ∀ row ∈ opcodeTable, ∀ other ∈ opcodeTable,
    row.pattern &&& other.mask = other.pattern &&& row.mask → other = row := by
  decide

theorem matching_row_unique {w : Word} {row other : OpcodeRow} (mem : row ∈ opcodeTable) (mem' : other ∈ opcodeTable)
    (h : row.matches w = true) (h' : other.matches w = true) : other = row := by
  refine rows_disjoint row mem other mem' ?_
  rw [← beq_iff_eq.mp h, ← beq_iff_eq.mp h', BitVec.and_assoc, BitVec.and_assoc, BitVec.and_comm row.mask]

/-! ## The obligations -/

/-- Settles O1: the decoder's tests read the fields the encoder's layouts are built from. -/
theorem decodeOfEncodeIsTheInstruction : Obligations.DecodeOfEncodeIsTheInstruction := fun i _ =>
  ⟨decodeWord_encode i, decode_bytesOfWord_append (decodeWord_encode i)⟩

/-- Settles O2: a word is the layout of its own fields, and each branch of the decoder has tested the fixed ones. -/
theorem encodeOfDecodeIsTheWord : Obligations.EncodeOfDecodeIsTheWord := fun _ _ decodes =>
  Exceptions.encode_of_decodeWord decodes

/-- Settles O3: each family of R77 rejects by one selector field. -/
theorem rejectedWordsAreExactlyTheIllegalOnes : Obligations.RejectedWordsAreExactlyTheIllegalOnes := by
  intro w
  refine ⟨(decodeWord_rejects_iff w).mpr, fun legal => ?_⟩
  cases decoded : decodeWord w with
  | ok i => exact ⟨i, rfl⟩
  | error e => exact absurd ((decodeWord_rejects_iff w).mp ⟨e, decoded⟩) legal

/-- Settles O4: the row is the one the encoding of the instruction matches, and the patterns of two rows differ in a bit
both masks keep. -/
theorem decodeAgreesWithTheOpcodeTable : Obligations.DecodeAgreesWithTheOpcodeTable := by
  intro w
  refine ⟨fun i decodes => ?_, fun e rejected => (Exceptions.matches_no_row_iff w).mpr ⟨e, rejected⟩⟩
  obtain ⟨-, row, mem, named, matchesRow⟩ := Exceptions.encode_matches_own_row i
  rw [Exceptions.encode_of_decodeWord decodes] at matchesRow
  exact ⟨row, mem, matchesRow, named, fun other mem' => matching_row_unique mem mem' matchesRow⟩

/-- Settles O5: the decoder runs on the nine words. -/
theorem writtenOutWordsDecode : Obligations.WrittenOutWordsDecode := by
  unfold Obligations.WrittenOutWordsDecode
  decide

end Sys2Proof.Proofs.RoundTrip

/-!
PROOFS of the statements over every instruction: which error each can raise, how each leaves `pc`, which items of the
state each can change, and where the random input goes (10_state.md, 60_exceptions.md section 1).
-/

namespace Sys2Proof.Proofs.EveryInstruction

open Sys2Proof.Machine

/-! ## Instructions that complete under a condition and raise one error otherwise -/

/-- The result is the state `next` where `ok` holds, and the error `err` where it does not. -/
structure Splits (result : Result) (ok : Prop) (next : ok → State) (err : Fault) : Prop where
  completes : ∀ h : ok, result = .next (next h)
  raises : ¬ ok → result = .fault err

section Splits

variable {result : Result} {ok : Prop} {next : ok → State} {err : Fault}

theorem Splits.of_next {t : State} (split : Splits result ok next err) (h : result = .next t) :
    ∃ holds : ok, t = next holds := by
  by_cases holds : ok
  · exact ⟨holds, Host.Outcome.next.inj (h.symm.trans (split.completes holds))⟩
  · exact nomatch h.symm.trans (split.raises holds)

theorem Splits.of_fault {f : Fault} (split : Splits result ok next err) (h : result = .fault f) : ¬ ok ∧ f = err := by
  by_cases holds : ok
  · exact nomatch h.symm.trans (split.completes holds)
  · exact ⟨holds, Host.Outcome.fault.inj (h.symm.trans (split.raises holds))⟩

theorem Splits.ne_refused (split : Splits result ok next err) (q : Refusal) : result ≠ .refused q := by
  intro h
  by_cases holds : ok
  · exact nomatch h.symm.trans (split.completes holds)
  · exact nomatch h.symm.trans (split.raises holds)

end Splits

/-- Memory after a block write at `a` that stays inside it (20_memory.md R56). -/
def written (m : Memory) (a : Nat) (bs : List Byte) : Memory :=
  match m.writeBytes a bs with
  | .ok m' => m'
  | .error _ => m

section Written

variable {m : Memory} {a : Nat} {bs : List Byte}

theorem writeBytes_eq_written (fits : a + bs.length ≤ 0x1000) : m.writeBytes a bs = .ok (written m a bs) := by
  obtain ⟨m', ok, -⟩ := Memory.writeBytes_ok m a bs (.inr fits)
  simp only [written, ok]

theorem get_written_inside (fits : a + bs.length ≤ 0x1000) (k : Nat) (hk : k < bs.length) :
    (written m a bs).get (a + k) = bs[k] := by
  obtain ⟨m', ok, inside, -⟩ := Memory.writeBytes_ok m a bs (.inr fits)
  simp only [written, ok, inside k hk]

theorem get_written_outside (fits : a + bs.length ≤ 0x1000) (b : Nat) (outside : b < a ∨ a + bs.length ≤ b) :
    (written m a bs).get b = m.get b := by
  obtain ⟨m', ok, -, unchanged, -⟩ := Memory.writeBytes_ok m a bs (.inr fits)
  simp only [written, ok, unchanged b outside]

theorem wf_written (canonical : m.wf = true) (fits : a + bs.length ≤ 0x1000) : (written m a bs).wf = true := by
  obtain ⟨m', ok, -, -, keeps⟩ := Memory.writeBytes_ok m a bs (.inr fits)
  simp only [written, ok, keeps canonical]

end Written

/-- The state after DXYN whose sprite is inside memory (43_graphics.md R181). -/
def drawn (s : State) (x y n : Nibble) : State :=
  (s.setFb (drawRows (s.getV x) (s.getV y) 0 (s.spriteRows n) (s.fb, false)).1).setV 0xF
    (collisionFlag (drawRows (s.getV x) (s.getV y) 0 (s.spriteRows n) (s.fb, false)).2)

section Partial

variable (s : State) (x y n : Nibble) (nnn : Addr12)

theorem exec_ret_splits :
    Splits (exec .ret s) (0 < s.sp.val)
      (fun h => { s with pc := s.stack[s.sp.val - 1]'(by omega), sp := ⟨s.sp.val - 1, by omega⟩ })
      (.stackBounds (s.pc - 2) (encode .ret) .pop) :=
  ⟨execRet_ok s, fun h => execRet_error s (Nat.eq_zero_of_not_pos h)⟩

theorem exec_call_splits :
    Splits (exec (.call nnn) s) (s.sp.val < 16)
      (fun h => { s with pc := addressOperand nnn, sp := ⟨s.sp.val + 1, by omega⟩,
                         stack := s.stack.set s.sp.val s.pc h })
      (.stackBounds (s.pc - 2) (encode (.call nnn)) .push) :=
  ⟨execCall_ok s nnn, fun h => execCall_error s nnn (by omega)⟩

theorem exec_drw_splits :
    Splits (exec (.drw x y n) s) (n.toNat = 0 ∨ s.i.toNat + n.toNat ≤ 0x1000)
      (fun _ => drawn s x y n)
      (.memoryBounds (s.pc - 2) (some (encode (.drw x y n))) (max s.i.toNat 0x1000)) :=
  ⟨execDrw_ok s x y n, fun h => execDrw_error s x y n (by omega) (by omega)⟩

theorem storeThroughIndex_splits (i : Instr) (bs : List Byte) (nonempty : bs ≠ []) :
    Splits (storeThroughIndex i bs s) (s.i.toNat + bs.length ≤ 0x1000)
      (fun _ => s.setMem (written s.mem s.i.toNat bs))
      (.memoryBounds (s.pc - 2) (some (encode i)) (max s.i.toNat 0x1000)) := by
  refine ⟨fun fits => ?_, fun h => storeThroughIndex_error i bs s nonempty (by omega)⟩
  simp only [storeThroughIndex, State.indexAddress, writeBytes_eq_written fits]

theorem exec_ldB_splits :
    Splits (exec (.ldB x) s) (s.i.toNat + 3 ≤ 0x1000)
      (fun _ => s.setMem (written s.mem s.i.toNat (bcdDigits (s.getV x))))
      (.memoryBounds (s.pc - 2) (some (encode (.ldB x))) (max s.i.toNat 0x1000)) :=
  storeThroughIndex_splits s (.ldB x) (bcdDigits (s.getV x)) (List.cons_ne_nil _ _)

theorem exec_stRegs_splits :
    Splits (exec (.stRegs x) s) (s.i.toNat + (s.regsUpTo x).length ≤ 0x1000)
      (fun _ => s.setMem (written s.mem s.i.toNat (s.regsUpTo x)))
      (.memoryBounds (s.pc - 2) (some (encode (.stRegs x))) (max s.i.toNat 0x1000)) :=
  storeThroughIndex_splits s (.stRegs x) (s.regsUpTo x) (List.ne_nil_of_length_pos (by simp))

theorem exec_ldRegs_splits :
    Splits (exec (.ldRegs x) s) (s.i.toNat + x.toNat ≤ 0xFFF)
      (fun _ => s.setVs 0 ((List.range (x.toNat + 1)).map fun k => s.byte (s.i.toNat + k)))
      (.memoryBounds (s.pc - 2) (some (encode (.ldRegs x))) (max s.i.toNat 0x1000)) :=
  ⟨execLdRegs_ok s x, fun h => execLdRegs_error s x (by omega)⟩

theorem exec_skp_splits :
    Splits (exec (.skp x) s) (¬ (s.getV x).toNat > 0xF)
      (fun _ => s.skipIf (s.keyDown (BitVec.ofNat 4 (s.getV x).toNat)))
      (.keyIndex (s.pc - 2) (encode (.skp x)) (s.getV x)) :=
  ⟨execSkp_ok s x, fun h => execSkp_error s x (not_not.mp h)⟩

theorem exec_sknp_splits :
    Splits (exec (.sknp x) s) (¬ (s.getV x).toNat > 0xF)
      (fun _ => s.skipIf (!s.keyDown (BitVec.ofNat 4 (s.getV x).toNat)))
      (.keyIndex (s.pc - 2) (encode (.sknp x)) (s.getV x)) :=
  ⟨execSknp_ok s x, fun h => execSknp_error s x (not_not.mp h)⟩

/-- FX0A completes whether or not a key is latched. -/
theorem exec_ldVxK_cases :
    (∃ k, s.lowestKey = some k ∧ exec (.ldVxK x) s = .next (s.setV x (BitVec.ofNat 8 k.toNat))) ∨
    (s.lowestKey = none ∧ exec (.ldVxK x) s = .next s.rewindPc) := by
  cases lowest : s.lowestKey with
  | some k => exact .inl ⟨k, rfl, InputTimers.execLdVxK_latched x lowest⟩
  | none => exact .inr ⟨rfl, InputTimers.execLdVxK_waiting x lowest⟩

end Partial

/-! ## No instruction is refused -/

theorem exec_ne_refused (i : Instr) (s : State) (q : Refusal) : exec i s ≠ .refused q := by
  cases i with
  | ret => exact (exec_ret_splits s).ne_refused q
  | call nnn => exact (exec_call_splits s nnn).ne_refused q
  | drw x y n => exact (exec_drw_splits s x y n).ne_refused q
  | ldB x => exact (exec_ldB_splits s x).ne_refused q
  | stRegs x => exact (exec_stRegs_splits s x).ne_refused q
  | ldRegs x => exact (exec_ldRegs_splits s x).ne_refused q
  | skp x => exact (exec_skp_splits s x).ne_refused q
  | sknp x => exact (exec_sknp_splits s x).ne_refused q
  | ldVxK x =>
    obtain ⟨_, -, completes⟩ | ⟨-, completes⟩ := exec_ldVxK_cases s x
    all_goals exact completes ▸ nofun
  | nop | cls | jp | seImm | sneImm | seReg | sneReg | jpV0 | ldImm | addImm | ldReg | orReg | andReg | xorReg
  | addReg | subReg | shr | subnReg | shl | rnd | ldI | addI | ldF | ldVxDt | ldDtVx | ldStVx => exact nofun

theorem stepWith_ne_refused (r : Byte) (s : State) (q : Refusal) : stepWith r s ≠ .refused q := by
  obtain ⟨-, faults⟩ | ⟨-, op, -, ⟨e, -, faults⟩ | ⟨i, -, runs⟩⟩ := stepWith_cases r s
  · exact faults ▸ nofun
  · exact faults ▸ nofun
  · exact runs ▸ exec_ne_refused i _ q

theorem transact_ne_refused (font : Config.FontRom) (t : Transaction) (s : State) (q : Refusal) :
    (transact font t s).2 ≠ .refused q := by
  cases t with
  | create | reset | setKey | tick | readFb | readSt | readDt => exact nofun
  | load bytes =>
    simp only [transact]
    split
    all_goals exact nofun
  | step r =>
    simp only [transact, transactStep]
    split
    · exact nofun
    · exact nofun
    · exact absurd ‹_› (stepWith_ne_refused r s _)

/-! ## Which items of the state each instruction can change -/

/-- The instructions that can leave `pc` elsewhere than past themselves (10_state.md R25). -/
def writesPc : Instr → Bool
  | .ret | .jp _ | .call _ | .seImm _ _ | .sneImm _ _ | .seReg _ _ | .sneReg _ _ | .jpV0 _ | .skp _ | .sknp _
  | .ldVxK _ => true
  | _ => false

/-- The instructions that can write a general register. -/
def writesV : Instr → Bool
  | .ldImm _ _ | .addImm _ _ | .ldReg _ _ | .orReg _ _ | .andReg _ _ | .xorReg _ _ | .addReg _ _ | .subReg _ _
  | .shr _ _ | .subnReg _ _ | .shl _ _ | .rnd _ _ | .drw _ _ _ | .ldVxDt _ | .ldVxK _ | .ldRegs _ => true
  | _ => false

/-- Each item of the state, and the instructions that can change it. The key latches and the random source's fields no
instruction changes (`exec_keeps_inputs`). -/
structure ExecFrame (i : Instr) (s t : State) : Prop where
  pc : t.pc ≠ s.pc → writesPc i = true
  v : t.v ≠ s.v → writesV i = true
  mem : t.mem ≠ s.mem → ∃ x, i = .ldB x ∨ i = .stRegs x
  index : t.i ≠ s.i → (∃ nnn, i = .ldI nnn) ∨ ∃ x, i = .addI x ∨ i = .ldF x
  dt : t.dt ≠ s.dt → ∃ x, i = .ldDtVx x
  st : t.st ≠ s.st → ∃ x, i = .ldStVx x
  fb : t.fb ≠ s.fb → i = .cls ∨ ∃ x y n, i = .drw x y n
  sp : t.sp ≠ s.sp → i = .ret ∨ ∃ nnn, i = .call nnn
  stack : t.stack ≠ s.stack → ∃ nnn, i = .call nnn

theorem exec_frame {i : Instr} {s t : State} (h : exec i s = .next t) : ExecFrame i s t := by
  cases i with
  | ret =>
    obtain ⟨-, rfl⟩ := (exec_ret_splits s).of_next h
    constructor <;> simp [writesPc, writesV]
  | call nnn =>
    obtain ⟨-, rfl⟩ := (exec_call_splits s nnn).of_next h
    constructor <;> simp [writesPc, writesV]
  | drw x y n =>
    obtain ⟨-, rfl⟩ := (exec_drw_splits s x y n).of_next h
    constructor <;> simp [writesPc, writesV, drawn]
  | ldB x =>
    obtain ⟨-, rfl⟩ := (exec_ldB_splits s x).of_next h
    constructor <;> simp [writesPc, writesV]
  | stRegs x =>
    obtain ⟨-, rfl⟩ := (exec_stRegs_splits s x).of_next h
    constructor <;> simp [writesPc, writesV]
  | ldRegs x =>
    obtain ⟨-, rfl⟩ := (exec_ldRegs_splits s x).of_next h
    rw [State.setVs_eq]
    constructor <;> simp [writesPc, writesV]
  | skp x =>
    obtain ⟨-, rfl⟩ := (exec_skp_splits s x).of_next h
    rw [State.skipIf_eq]
    constructor <;> simp [writesPc, writesV]
  | sknp x =>
    obtain ⟨-, rfl⟩ := (exec_sknp_splits s x).of_next h
    rw [State.skipIf_eq]
    constructor <;> simp [writesPc, writesV]
  | ldVxK x =>
    obtain ⟨_, -, completes⟩ | ⟨-, completes⟩ := exec_ldVxK_cases s x
    all_goals
      cases completes.symm.trans h
      constructor <;> simp [writesPc, writesV]
  | seImm | sneImm | seReg | sneReg =>
    cases h
    rw [State.skipIf_eq]
    constructor <;> simp [writesPc, writesV]
  | nop | cls | jp | jpV0 | ldImm | addImm | ldReg | orReg | andReg | xorReg | addReg | subReg | shr | subnReg | shl
  | rnd | ldI | addI | ldF | ldVxDt | ldDtVx | ldStVx =>
    cases h
    constructor <;> simp [writesPc, writesV]

/-! ## VF -/

/-- A write to VX that changes VF names VF (10_state.md R22). -/
theorem eq_F_of_setV_changes_F {s : State} {x : Nibble} {b : Byte} (changed : (s.setV x b).getV 0xF ≠ s.getV 0xF) :
    x = 0xF := by
  by_contra other
  exact changed (State.getV_setV_ne s b (Ne.symm other))

theorem eq_F_of_setVs_changes_F {s : State} {x : Nibble} {bs : List Byte} (upToX : bs.length = x.toNat + 1)
    (changed : (s.setVs 0 bs).getV 0xF ≠ s.getV 0xF) : x = 0xF := by
  by_contra other
  have below : x.toNat < 15 := by
    have notF : x.toNat ≠ 15 := fun e => other (BitVec.eq_of_toNat_eq e)
    omega
  refine changed ?_
  rw [State.getV_setVs s 0 bs (by omega), dif_neg]
  rintro ⟨-, inList⟩
  exact absurd (show 15 < 0 + bs.length from inList) (by omega)

/-- The flag of an instruction that writes one is 0 or 1 (41_alu.md R142). -/
theorem setVFlag_F_zero_or_one {s : State} {x : Nibble} {b flag : Byte} (bit : flag.toNat < 2) :
    (s.setVFlag x b flag).getV 0xF = 0 ∨ (s.setVFlag x b flag).getV 0xF = 1 := by
  rw [Alu.getV_setVFlag_F]
  exact eq_zero_or_one_of_toNat_lt bit

theorem carryFlag_lt_two (a b : Byte) : (carryFlag a b).toNat < 2 := by
  rw [carryFlag_toNat]
  split <;> decide

theorem noBorrowFlag_lt_two (a b : Byte) : (noBorrowFlag a b).toNat < 2 := by
  rw [noBorrowFlag_toNat]
  split <;> decide

theorem lowBitFlag_lt_two (a : Byte) : (lowBitFlag a).toNat < 2 := by
  rw [lowBitFlag_toNat]
  omega

theorem highBitFlag_lt_two (a : Byte) : (highBitFlag a).toNat < 2 := by
  rw [highBitFlag_toNat]
  omega

theorem collisionFlag_lt_two (c : Bool) : (collisionFlag c).toNat < 2 := by
  cases c <;> decide

/-! ## The random input -/

/-- The state with the random source's fields replaced (log entry 1). -/
def withSource (r : Byte) (inputs : List Byte) (count : Nat) (s : State) : State :=
  { s with rnd := r, rndInputs := inputs, stepCount := count }

/-- A function on the next state of a result. -/
def mapNext (g : State → State) : Result → Result
  | .next t => .next (g t)
  | .fault f => .fault f
  | .refused q => .refused q

/-- A split result over the replaced state is the split result of the old one, replaced. -/
theorem Splits.mapNext_eq {result result' : Result} {ok : Prop} {next next' : ok → State} {err : Fault}
    {g : State → State} (split : Splits result ok next err) (split' : Splits result' ok next' err)
    (same : ∀ h, next' h = g (next h)) : result' = mapNext g result := by
  by_cases holds : ok
  · rw [split.completes holds, split'.completes holds, same]
    rfl
  · rw [split.raises holds, split'.raises holds]
    rfl

section Source

variable (r : Byte) (inputs : List Byte) (count : Nat) (s : State)

theorem withSource_setVs (k : Nat) (bs : List Byte) :
    (withSource r inputs count s).setVs k bs = withSource r inputs count (s.setVs k bs) := by
  induction bs generalizing s k with
  | nil => rfl
  | cons b bs ih => exact ih (s.setV (BitVec.ofNat 4 k) b) (k + 1)

theorem withSource_skipIf (c : Bool) :
    (withSource r inputs count s).skipIf c = withSource r inputs count (s.skipIf c) := by
  cases c <;> rfl

/-- Only CXNN reads the random input, and no instruction reads how the inputs are supplied. -/
theorem exec_withSource (i : Instr) (blind : r = s.rnd ∨ ∀ x nn, i ≠ .rnd x nn) :
    exec i (withSource r inputs count s) = mapNext (withSource r inputs count) (exec i s) := by
  cases i with
  | ret => exact (exec_ret_splits s).mapNext_eq (exec_ret_splits _) fun _ => rfl
  | call nnn => exact (exec_call_splits s nnn).mapNext_eq (exec_call_splits _ nnn) fun _ => rfl
  | drw x y n => exact (exec_drw_splits s x y n).mapNext_eq (exec_drw_splits _ x y n) fun _ => rfl
  | ldB x => exact (exec_ldB_splits s x).mapNext_eq (exec_ldB_splits _ x) fun _ => rfl
  | stRegs x => exact (exec_stRegs_splits s x).mapNext_eq (exec_stRegs_splits _ x) fun _ => rfl
  | ldRegs x =>
    exact (exec_ldRegs_splits s x).mapNext_eq (exec_ldRegs_splits _ x) fun _ => withSource_setVs r inputs count s 0 _
  | skp x => exact (exec_skp_splits s x).mapNext_eq (exec_skp_splits _ x) fun _ => withSource_skipIf r inputs count s _
  | sknp x =>
    exact (exec_sknp_splits s x).mapNext_eq (exec_sknp_splits _ x) fun _ => withSource_skipIf r inputs count s _
  | ldVxK x =>
    cases lowest : s.lowestKey with
    | some k =>
      rw [InputTimers.execLdVxK_latched x lowest]
      exact InputTimers.execLdVxK_latched (s := withSource r inputs count s) x lowest
    | none =>
      rw [InputTimers.execLdVxK_waiting x lowest]
      exact InputTimers.execLdVxK_waiting (s := withSource r inputs count s) x lowest
  | rnd x nn =>
    obtain rfl | notRnd := blind
    · rfl
    · exact absurd rfl (notRnd x nn)
  | seImm | sneImm | seReg | sneReg => exact congrArg Host.Outcome.next (withSource_skipIf r inputs count s _)
  | nop | cls | jp | jpV0 | ldImm | addImm | ldReg | orReg | andReg | xorReg | addReg | subReg | shr | subnReg | shl
  | ldI | addI | ldF | ldVxDt | ldDtVx | ldStVx => rfl

end Source

/-! ## The obligations -/

/-- Settles O10: each of the eight instructions that can raise an error splits on its own condition, and the others
always complete. -/
theorem eachInstructionRaisesOnlyItsOwnError : Obligations.EachInstructionRaisesOnlyItsOwnError := by
  intro i s f h
  cases i with
  | ret =>
    obtain ⟨empty, rfl⟩ := (exec_ret_splits s).of_fault h
    exact ⟨Fin.ext (Nat.eq_zero_of_not_pos empty), rfl⟩
  | call nnn =>
    obtain ⟨full, rfl⟩ := (exec_call_splits s nnn).of_fault h
    exact ⟨Fin.ext (show s.sp.val = 16 by omega), rfl⟩
  | drw x y n =>
    obtain ⟨leaves, rfl⟩ := (exec_drw_splits s x y n).of_fault h
    obtain ⟨rows, beyond⟩ := not_or.mp leaves
    exact ⟨fun noRow => rows (congrArg BitVec.toNat noRow), by omega, rfl⟩
  | ldB x =>
    obtain ⟨leaves, rfl⟩ := (exec_ldB_splits s x).of_fault h
    exact ⟨by omega, rfl⟩
  | stRegs x =>
    obtain ⟨leaves, rfl⟩ := (exec_stRegs_splits s x).of_fault h
    rw [State.regsUpTo_length] at leaves
    exact ⟨by omega, rfl⟩
  | ldRegs x =>
    obtain ⟨leaves, rfl⟩ := (exec_ldRegs_splits s x).of_fault h
    exact ⟨by omega, rfl⟩
  | skp x =>
    obtain ⟨noKey, rfl⟩ := (exec_skp_splits s x).of_fault h
    exact ⟨not_not.mp noKey, rfl⟩
  | sknp x =>
    obtain ⟨noKey, rfl⟩ := (exec_sknp_splits s x).of_fault h
    exact ⟨not_not.mp noKey, rfl⟩
  | ldVxK x =>
    obtain ⟨_, -, completes⟩ | ⟨-, completes⟩ := exec_ldVxK_cases s x
    all_goals exact nomatch completes.symm.trans h
  | nop | cls | jp | seImm | sneImm | seReg | sneReg | jpV0 | ldImm | addImm | ldReg | orReg | andReg | xorReg
  | addReg | subReg | shr | subnReg | shl | rnd | ldI | addI | ldF | ldVxDt | ldDtVx | ldStVx =>
    exact Exceptions.next_ne_fault h

/-- Settles O13: every instruction completes or raises an error, and a STEP adds only the errors of fetch and decode. -/
theorem nothingIsRefused : Obligations.NothingIsRefused :=
  ⟨exec_ne_refused, fun s => stepWith_ne_refused s.nextRnd s.takeRnd, transact_ne_refused⟩

/-- Settles O19: `pc` of the next state of each instruction. -/
theorem programCounterAfterEachInstruction : Obligations.ProgramCounterAfterEachInstruction := by
  intro i s t h
  cases i with
  | ret =>
    obtain ⟨nonempty, rfl⟩ := (exec_ret_splits s).of_next h
    exact ⟨by omega, rfl⟩
  | call nnn =>
    obtain ⟨-, rfl⟩ := (exec_call_splits s nnn).of_next h
    exact addressOperand_toNat nnn
  | skp x =>
    obtain ⟨-, rfl⟩ := (exec_skp_splits s x).of_next h
    exact State.skipIf_pc s _
  | sknp x =>
    obtain ⟨-, rfl⟩ := (exec_sknp_splits s x).of_next h
    exact (State.skipIf_pc s _).trans (by cases s.keyDown (BitVec.ofNat 4 (s.getV x).toNat) <;> rfl)
  | ldVxK x =>
    obtain ⟨k, lowest, completes⟩ | ⟨noKey, completes⟩ := exec_ldVxK_cases s x
    · cases completes.symm.trans h
      obtain ⟨latched, -⟩ := (State.lowestKey_some s k).mp lowest
      exact (if_pos ⟨k, latched⟩).symm
    · cases completes.symm.trans h
      have noneLatched := (State.lowestKey_none s).mp noKey
      exact (if_neg (by simp [noneLatched])).symm
  | seImm | sneImm | seReg | sneReg =>
    cases h
    simp
  | jp nnn =>
    cases h
    exact addressOperand_toNat nnn
  | jpV0 nnn =>
    cases h
    exact jumpV0Target_toNat nnn (s.getV 0)
  | nop | cls | ldImm | addImm | ldReg | orReg | andReg | xorReg | addReg | subReg | shr | subnReg | shl | rnd | drw
  | ldI | addI | ldF | ldB | stRegs | ldRegs | ldVxDt | ldDtVx | ldStVx =>
    exact by_contra fun moved => nomatch (exec_frame h).pc moved

/-- Settles O33: `exec_withSource` with the supply of inputs left as it is. -/
theorem randomInputReachesOnlyRnd : Obligations.RandomInputReachesOnlyRnd := by
  intro i s r notRnd
  have replaced := exec_withSource r s.rndInputs s.stepCount s i (.inr notRnd)
  refine ⟨fun t completes => ?_, fun f raises => ?_⟩
  · obtain ⟨-, -, sameInputs, sameCount⟩ := exec_keeps_inputs i s t completes
    have supply : withSource r s.rndInputs s.stepCount t = t.withRnd r := by
      rw [← sameInputs, ← sameCount]
      rfl
    rw [completes, mapNext, supply] at replaced
    exact replaced
  · rw [raises] at replaced
    exact replaced

/-- Settles O34: VF is written as a flag, or as the VX of the instruction. -/
theorem onlyFlagInstructionsOrDestinationsWriteVF : Obligations.OnlyFlagInstructionsOrDestinationsWriteVF := by
  intro i s t h changed
  cases i with
  | addReg => cases h; exact setVFlag_F_zero_or_one (carryFlag_lt_two _ _)
  | subReg | subnReg => cases h; exact setVFlag_F_zero_or_one (noBorrowFlag_lt_two _ _)
  | shr => cases h; exact setVFlag_F_zero_or_one (lowBitFlag_lt_two _)
  | shl => cases h; exact setVFlag_F_zero_or_one (highBitFlag_lt_two _)
  | drw x y n =>
    obtain ⟨-, rfl⟩ := (exec_drw_splits s x y n).of_next h
    rw [drawn, State.getV_setV_self]
    exact eq_zero_or_one_of_toNat_lt (collisionFlag_lt_two _)
  | ldImm | addImm | rnd | ldReg | orReg | andReg | xorReg | ldVxDt => cases h; exact eq_F_of_setV_changes_F changed
  | ldRegs x =>
    obtain ⟨-, rfl⟩ := (exec_ldRegs_splits s x).of_next h
    exact eq_F_of_setVs_changes_F (by simp) changed
  | ldVxK x =>
    obtain ⟨k, -, completes⟩ | ⟨-, completes⟩ := exec_ldVxK_cases s x
    · cases completes.symm.trans h
      exact eq_F_of_setV_changes_F changed
    · cases completes.symm.trans h
      exact absurd rfl changed
  | nop | cls | ret | jp | call | seImm | sneImm | seReg | sneReg | jpV0 | skp | sknp | ldI | addI | ldF | ldB | stRegs
  | ldDtVx | ldStVx =>
    exact nomatch (exec_frame h).v fun same => changed (State.getV_congr same 0xF)

/-- Settles O42: a byte that differs is in a memory that differs. -/
theorem onlyBcdAndBlockStoreChangeMemory : Obligations.OnlyBcdAndBlockStoreChangeMemory := by
  intro i s t h ⟨a, changed⟩
  exact (exec_frame h).mem fun same => changed (State.byte_congr same a)

/-- Settles O43: the frame of I. -/
theorem onlyIndexInstructionsChangeI : Obligations.OnlyIndexInstructionsChangeI := fun _ _ _ h => (exec_frame h).index

/-- Settles O52: the frames of the devices and of the call stack; no instruction writes a key latch. -/
theorem onlyNamedInstructionsChangeDevicesAndStack : Obligations.OnlyNamedInstructionsChangeDevicesAndStack := by
  intro i s t h
  obtain ⟨sameKeys, -⟩ := exec_keeps_inputs i s t h
  have frame := exec_frame h
  refine ⟨State.keyDown_congr sameKeys, frame.dt, frame.st, fun changed => ?_, frame.sp, frame.stack⟩
  exact frame.fb fun same => changed (State.pixel_congr same)

end Sys2Proof.Proofs.EveryInstruction

/-!
PROOFS of the statements on the STEP and its errors (30_encoding.md section 5, 60_exceptions.md section 1) and of the
invariants that every STEP and every schedule keeps (10_state.md sections 3 and 7).
-/

namespace Sys2Proof.Proofs.Cycle

open Sys2Proof.Machine

/-! ## The STEP and its errors -/

theorem stepWith_of_pastEnd (r : Byte) {s : State} (pastEnd : s.pc.toNat ≥ 0xFFF) :
    stepWith r s = .fault (.memoryBounds s.pc none (max s.pc.toNat 0x1000)) := by
  simp only [stepWith, fetch_error s pastEnd]
  rfl

theorem transactStep_of_next {r : Byte} {s t : State} (completes : stepWith r s = .next t) :
    transactStep r s = (t, .ok) := by
  simp only [transactStep, completes]

theorem transactStep_of_fault {r : Byte} {s : State} {f : Fault} (faults : stepWith r s = .fault f) :
    transactStep r s = (s.afterErr f, .err f) := by
  simp only [transactStep, faults]

theorem afterErr_of_no_word {s : State} {f : Fault} (noWord : f.op = none) : s.afterErr f = s := by
  simp only [State.afterErr, noWord]

theorem afterErr_of_word {s : State} {f : Fault} {w : Word} (word : f.op = some w) : s.afterErr f = s.advancePc := by
  simp only [State.afterErr, word]

/-- A STEP as a transaction completes, or leaves the state R218 gives. -/
theorem transactStep_cases (r : Byte) (s : State) :
    (∃ t, stepWith r s = .next t ∧ transactStep r s = (t, .ok)) ∨
    ∃ f, stepWith r s = .fault f ∧ transactStep r s = (s.afterErr f, .err f) := by
  cases result : stepWith r s with
  | next t => exact .inl ⟨t, rfl, transactStep_of_next result⟩
  | fault f => exact .inr ⟨f, rfl, transactStep_of_fault result⟩
  | refused q => exact absurd result (EveryInstruction.stepWith_ne_refused r s q)

/-- Settles O6: the execute phase starts in `fetched`, and `step` takes its random input from the state first. -/
theorem stepRunsTheDecodedInstruction : Obligations.StepRunsTheDecodedInstruction := fun s i inRange decodes =>
  ⟨fun r => ControlFlow.stepWith_of_decodes r s i inRange decodes,
    ControlFlow.stepWith_of_decodes s.nextRnd s.takeRnd i inRange decodes⟩

/-- Settles O8: a fetch error records no word, so `afterErr` is the state before the STEP. -/
theorem failedFetchIsReportedAndChangesNothing : Obligations.FailedFetchIsReportedAndChangesNothing := by
  intro s r pastEnd
  exact transactStep_of_fault (stepWith_of_pastEnd r pastEnd)

/-- The errors of the execute phase have the codes 2 to 4, so code 1 is the decoder's alone (R211). -/
theorem code_ne_one {i : Instr} {s : State} {f : Fault} (raised : Exceptions.ExecError i s f) : f.code ≠ 1 := by
  cases raised <;> simp

/-- Settles O11: each of the three phases records the fetch address, and the last two the fetched word. -/
theorem stepErrorRecordsFetchAddressAndWord : Obligations.StepErrorRecordsFetchAddressAndWord := by
  intro s r f faults
  cases Exceptions.stepWith_fault_cases faults with
  | fetch pastEnd => exact ⟨rfl, fun _ => ⟨rfl, rfl⟩, fun inRange => absurd inRange (by omega)⟩
  | decode inRange rejected =>
    exact ⟨rfl, fun pastEnd => absurd pastEnd (by omega), fun _ => ⟨rfl, fun _ => ⟨_, rejected⟩, fun _ => rfl⟩⟩
  | execute inRange decodes raised =>
    refine ⟨raised.fetchPc_eq.trans (ControlFlow.fetched_pc_sub_two s r), fun pastEnd => absurd pastEnd (by omega),
      fun _ => ⟨?word, fun decodeCode => absurd decodeCode (code_ne_one raised), fun ⟨e, rejected⟩ => ?legal⟩⟩
    case word => rw [raised.op_eq, Exceptions.encode_of_decodeWord decodes]
    case legal => exact nomatch decodes.symm.trans rejected

/-- Settles O12: `afterErr` advances `pc` exactly when the error records a word, which a fetch error does not. -/
theorem stateAfterAnErrorIsPrecise : Obligations.StateAfterAnErrorIsPrecise := by
  intro s t r f outcome
  obtain ⟨_, -, completes⟩ | ⟨g, faults, leaves⟩ := transactStep_cases r s
  · exact nomatch (Prod.ext_iff.mp (outcome.symm.trans completes)).2
  · cases outcome.symm.trans leaves
    obtain ⟨-, fetchError, otherError⟩ := stepErrorRecordsFetchAddressAndWord s r f faults
    refine ⟨fun pastEnd => afterErr_of_no_word (fetchError pastEnd).1, fun inRange => ?_⟩
    rw [afterErr_of_word (otherError inRange).1]
    exact ⟨rfl, ControlFlow.sameOutsidePc_setPc s (s.pc + 2)⟩

/-- Settles O51: with no key latched FX0A goes back to its own address, so only the random input differs. -/
theorem waitingForAKeyStaysAtTheInstruction : Obligations.WaitingForAKeyStaysAtTheInstruction := by
  intro s x r inRange isWait noneLatched
  have word : s.wordAtPc = encode (.ldVxK x) := by
    refine BitVec.eq_of_toNat_eq (isWait.trans ?_)
    rw [encode, layoutXK_toNat]
    show 0xF00A + 256 * x.toNat = 0xF * 4096 + x.toNat * 256 + 0x0A
    omega
  have decodes : decodeWord s.wordAtPc = .ok (.ldVxK x) := word ▸ RoundTrip.decodeWord_encode (.ldVxK x)
  have noKey : (s.fetched r).lowestKey = none := (State.lowestKey_none _).mpr noneLatched
  have waits : stepWith r s = .next (s.fetched r).rewindPc :=
    (ControlFlow.stepWith_of_decodes r s _ inRange decodes).trans (InputTimers.execLdVxK_waiting x noKey)
  have back : (s.fetched r).rewindPc = { s with rnd := r } := by
    rw [State.rewindPc, ControlFlow.fetched_pc_sub_two]
    rfl
  rw [transactStep_of_next waits, back]

end Sys2Proof.Proofs.Cycle

namespace Sys2Proof.Proofs.Invariants

open Sys2Proof.Machine EveryInstruction

/-! ## What one instruction leaves in memory, in `pc` and in the call stack -/

theorem exec_keeps_wf {i : Instr} {s t : State} (h : exec i s = .next t) (canonical : s.mem.wf = true) :
    t.mem.wf = true := by
  by_cases same : t.mem = s.mem
  · rwa [same]
  · obtain ⟨x, rfl | rfl⟩ := (exec_frame h).mem same
    · obtain ⟨fits, rfl⟩ := (exec_ldB_splits s x).of_next h
      exact wf_written canonical fits
    · obtain ⟨fits, rfl⟩ := (exec_stRegs_splits s x).of_next h
      exact wf_written canonical fits

/-- Where `pc` can be after an instruction: in place, one word on or back, at a call stack entry, or at the target of a
jump, which is at most 0xFFF + 0xFF (10_state.md R25, R27). -/
theorem exec_pc_cases {i : Instr} {s t : State} (h : exec i s = .next t) :
    t.pc = s.pc ∨ t.pc = s.pc + 2 ∨ t.pc = s.pc - 2 ∨ (∃ j : Fin 16, t.pc = s.stack[j]) ∨
    (t.pc.toNat ≤ 0x10FE ∧ (EvenTarget i s → t.pc.toNat % 2 = 0)) := by
  have pc := programCounterAfterEachInstruction i s t h
  cases i with
  | seImm | seReg | skp =>
    simp only at pc
    split at pc
    · exact .inr (.inl pc)
    · exact .inl pc
  | sneImm | sneReg | sknp =>
    simp only at pc
    split at pc
    · exact .inl pc
    · exact .inr (.inl pc)
  | ldVxK =>
    simp only at pc
    split at pc
    · exact .inl pc
    · exact .inr (.inr (.inl pc))
  | ret =>
    obtain ⟨inStack, pc⟩ := pc
    exact .inr (.inr (.inr (.inl ⟨⟨_, inStack⟩, pc⟩)))
  | jp nnn | call nnn =>
    have := nnn.isLt
    exact .inr (.inr (.inr (.inr ⟨by omega, fun even => by rw [pc]; exact even⟩)))
  | jpV0 nnn =>
    have := nnn.isLt
    have := (s.getV 0).isLt
    exact .inr (.inr (.inr (.inr ⟨by omega, fun even => by rw [pc]; exact even⟩)))
  | nop | cls | ldImm | addImm | ldReg | orReg | andReg | xorReg | addReg | subReg | shr | subnReg | shl | rnd | drw
  | ldI | addI | ldF | ldB | stRegs | ldRegs | ldVxDt | ldDtVx | ldStVx => exact .inl pc

/-- What is true of `pc` and of every call stack entry is true of every entry after an instruction: CALL pushes `pc`,
and nothing else writes an entry (10_state.md R30). -/
theorem exec_keeps_entries {P : Word → Prop} {i : Instr} {s t : State} (h : exec i s = .next t) (pc : P s.pc)
    (entries : ∀ j : Fin 16, P s.stack[j]) (j : Fin 16) : P t.stack[j] := by
  by_cases same : t.stack = s.stack
  · rw [same]
    exact entries j
  · obtain ⟨nnn, rfl⟩ := (exec_frame h).stack same
    obtain ⟨free, rfl⟩ := (exec_call_splits s nnn).of_next h
    simp only [Fin.getElem_fin, Vector.getElem_set]
    split
    · exact pc
    · exact entries j

/-! ## What one STEP keeps -/

theorem fetched_pc_toNat {s : State} (inRange : s.pc.toNat ≤ 0xFFE) (r : Byte) :
    (s.fetched r).pc.toNat = s.pc.toNat + 2 := by
  rw [State.fetched_pc, BitVec.toNat_add]
  exact Nat.mod_eq_of_lt (show s.pc.toNat + 2 < 65536 by omega)

theorem stepWith_keeps_wf {r : Byte} {s t : State} (h : stepWith r s = .next t) (canonical : s.mem.wf = true) :
    t.mem.wf = true := by
  obtain ⟨-, op, i, -, -, completes⟩ := stepWith_next r s t h
  exact exec_keeps_wf completes canonical

theorem stepWith_keeps_pcInRange {r : Byte} {s t : State} (h : stepWith r s = .next t) (bounds : PcInRange s) :
    PcInRange t := by
  obtain ⟨inRange, op, i, -, -, completes⟩ := stepWith_next r s t h
  have advanced := fetched_pc_toNat inRange r
  refine ⟨?_, exec_keeps_entries (P := (·.toNat ≤ 0x1000)) completes (by omega) bounds.2⟩
  obtain stays | skips | rewinds | ⟨j, returns⟩ | ⟨target, -⟩ := exec_pc_cases completes
  · rw [stays]
    omega
  · rw [skips, BitVec.toNat_add]
    exact (Nat.mod_le _ _).trans (show (s.fetched r).pc.toNat + 2 ≤ 0x10FE by omega)
  · rw [rewinds, ControlFlow.fetched_pc_sub_two]
    omega
  · rw [returns]
    exact (bounds.2 j).trans (by decide)
  · exact target

theorem stepWith_keeps_allEven {r : Byte} {s t : State} {i : Instr} (even : AllEven s) (inRange : s.pc.toNat ≤ 0xFFE)
    (decodes : decodeWord s.wordAtPc = .ok i) (evenTarget : EvenTarget i s) (h : stepWith r s = .next t) :
    AllEven t := by
  have advanced := fetched_pc_toNat inRange r
  obtain ⟨evenPc, evenEntries⟩ := even
  have completes := (ControlFlow.stepWith_of_decodes r s i inRange decodes).symm.trans h
  refine ⟨?_, exec_keeps_entries (P := (·.toNat % 2 = 0)) completes (by omega) evenEntries⟩
  obtain stays | skips | rewinds | ⟨j, returns⟩ | ⟨-, target⟩ := exec_pc_cases completes
  · rw [stays]
    omega
  · rw [skips, BitVec.toNat_add, advanced]
    show (s.pc.toNat + 2 + 2) % 65536 % 2 = 0
    omega
  · rw [rewinds, ControlFlow.fetched_pc_sub_two]
    exact evenPc
  · rw [returns]
    exact evenEntries j
  · exact target evenTarget

/-- An error leaves at most `pc + 2` behind, and only when `pc` was at most 0xFFE (60_exceptions.md R218). -/
theorem transactStep_keeps_invariant (r : Byte) (s : State) (invariant : CoreInvariant s) :
    CoreInvariant (transactStep r s).1 := by
  obtain ⟨canonical, bounds⟩ := invariant
  obtain ⟨t, completes, outcome⟩ | ⟨f, faults, outcome⟩ := Cycle.transactStep_cases r s
  · rw [outcome]
    exact ⟨stepWith_keeps_wf completes canonical, stepWith_keeps_pcInRange completes bounds⟩
  · obtain ⟨-, fetchError, -⟩ := Cycle.stepErrorRecordsFetchAddressAndWord s r f faults
    rw [outcome]
    cases word : f.op with
    | none =>
      rw [Cycle.afterErr_of_no_word word]
      exact ⟨canonical, bounds⟩
    | some w =>
      have inRange : s.pc.toNat ≤ 0xFFE := by
        by_contra pastEnd
        exact nomatch word.symm.trans (fetchError (by omega)).1
      have advanced : s.advancePc.pc.toNat = s.pc.toNat + 2 := fetched_pc_toNat inRange r
      have small : s.advancePc.pc.toNat ≤ 0x10FE := by omega
      rw [Cycle.afterErr_of_word word]
      exact ⟨canonical, small, bounds.2⟩

/-! ## What every transaction keeps -/

theorem reset_pcInRange : PcInRange State.reset := by
  unfold PcInRange
  decide

theorem doReset_meets_invariant (font : Config.FontRom) (s : State) : CoreInvariant (s.doReset font) := by
  obtain ⟨-, -, canonical⟩ := Memory.ofFont_spec font
  exact ⟨canonical, reset_pcInRange⟩

theorem transact_keeps_invariant (font : Config.FontRom) (t : Transaction) (s : State) (invariant : CoreInvariant s) :
    CoreInvariant (transact font t s).1 := by
  obtain ⟨canonical, bounds⟩ := invariant
  cases t with
  | create | reset => exact doReset_meets_invariant font s
  | load bytes =>
    by_cases tooLong : bytes.length > 3584
    · simp only [transact, State.load_error s bytes tooLong]
      exact ⟨canonical, bounds⟩
    · obtain ⟨m, loaded, -, -, keeps⟩ := State.load_ok s bytes (by omega)
      simp only [transact, loaded]
      exact ⟨keeps canonical, bounds⟩
  | step r => exact transactStep_keeps_invariant r s ⟨canonical, bounds⟩
  | setKey | tick | readFb | readSt | readDt => exact ⟨canonical, bounds⟩

/-! ## The obligations -/

/-- Settles O14: memory after reset lists no byte, and `pc` and every entry are in range. -/
theorem resetMeetsTheInvariant : Obligations.ResetMeetsTheInvariant := ⟨Memory.wf_nil, reset_pcInRange⟩

/-- Settles O15: the only stores are the block writes of FX33 and FX55. -/
theorem stepKeepsMemoryCanonical : Obligations.StepKeepsMemoryCanonical := fun _ _ canonical h =>
  stepWith_keeps_wf h canonical

/-- Settles O16: the bound on the call stack entries is what bounds `pc` after RET. -/
theorem stepKeepsProgramCounterInRange : Obligations.StepKeepsProgramCounterInRange := fun _ _ bounds h =>
  stepWith_keeps_pcInRange h bounds

/-- Settles O17, by induction on the schedule. -/
theorem everyScheduleKeepsTheInvariant : Obligations.EveryScheduleKeepsTheInvariant := by
  intro font sched
  induction sched with
  | nil => exact fun s invariant => invariant
  | cons t ts ih => exact fun s invariant => ih _ (transact_keeps_invariant font t s invariant)

/-- Settles O18: skips and FX0A move `pc` by one word, and the other instructions leave it in place, at an entry or at a
target. -/
theorem evenTargetsKeepTheProgramCounterEven : Obligations.EvenTargetsKeepTheProgramCounterEven :=
  fun s _ _ even inRange decodes evenTarget h =>
    stepWith_keeps_allEven (s := s.takeRnd) even inRange decodes evenTarget h

end Sys2Proof.Proofs.Invariants

/-!
PROOFS of the statements on one instruction at a time: the computed jump, returns, key skips, logic, shifts, the random
byte, I, and the accesses through I; and of the equality of canonical memories (20_memory.md, 40_control_flow.md,
41_alu.md, 42_index_memory.md, 44_input_timers.md).
-/

namespace Sys2Proof.Proofs.Results

open Sys2Proof.Machine EveryInstruction

/-! ## Control flow and key skips -/

/-- Settles O21: BNNN is one `setPc`, of a sum that fits in 16 bits. -/
theorem computedJumpTargetIsTheExactSum : Obligations.ComputedJumpTargetIsTheExactSum := fun s nnn =>
  ⟨_, rfl, jumpV0Target_toNat nnn (s.getV 0), ControlFlow.sameOutsidePc_setPc s _⟩

/-- Settles O24: the entry CALL wrote is still the top one. -/
theorem returnResumesAfterTheMatchingCall : Obligations.ReturnResumesAfterTheMatchingCall := by
  intro s t u nnn h ⟨sameSp, sameEntries⟩
  obtain ⟨free, rfl⟩ := (exec_call_splits s nnn).of_next h
  refine ControlFlow.exec_ret_of_top u s.pc s.sp free (congrArg Fin.val sameSp) ?_
  exact (sameEntries ⟨s.sp.val, free⟩).trans (Vector.getElem_set_self free)

/-- Settles O26: VX at most 0xF names the latch the skip reads. -/
theorem keySkipsFollowTheLatch : Obligations.KeySkipsFollowTheLatch := by
  intro s x
  refine ⟨fun k names => ?_, fun noKey =>
    ⟨(exec_skp_splits s x).raises (not_not.mpr noKey), (exec_sknp_splits s x).raises (not_not.mpr noKey)⟩⟩
  have isKey : ¬ (s.getV x).toNat > 0xF := by omega
  have latch : BitVec.ofNat 4 (s.getV x).toNat = k := by rw [names, BitVec.ofNat_toNat, BitVec.setWidth_eq]
  refine ⟨⟨_, (exec_skp_splits s x).completes isKey, ControlFlow.sameOutsidePc_skipIf s _, ?_⟩,
    ⟨_, (exec_sknp_splits s x).completes isKey, ControlFlow.sameOutsidePc_skipIf s _, ?_⟩⟩
  · rw [latch, State.skipIf_pc]
  · rw [latch, State.skipIf_pc]
    cases s.keyDown k <;> rfl

/-! ## Logic, shifts, the random byte -/

/-- Settles O28: each instruction is one `setV`, of the bitwise operation its name says. -/
theorem registerCopyAndLogicResults : Obligations.RegisterCopyAndLogicResults := by
  intro s x y
  refine ⟨?ldReg, ?orReg, ?andReg, ?xorReg⟩
  case ldReg =>
    exact ⟨_, rfl, State.getV_setV_self s x _, Alu.sameVBut_setV s x _, rfl, Alu.sameOutsideVPc_setV s x _⟩
  case orReg =>
    refine ⟨_, rfl, Alu.sameVBut_setV s x _, rfl, Alu.sameOutsideVPc_setV s x _, fun b _ => ?_⟩
    rw [State.getV_setV_self, BitVec.getLsbD_or]
  case andReg =>
    refine ⟨_, rfl, Alu.sameVBut_setV s x _, rfl, Alu.sameOutsideVPc_setV s x _, fun b _ => ?_⟩
    rw [State.getV_setV_self, BitVec.getLsbD_and]
  case xorReg =>
    refine ⟨_, rfl, Alu.sameVBut_setV s x _, rfl, Alu.sameOutsideVPc_setV s x _, fun b _ => ?_⟩
    rw [State.getV_setV_self, BitVec.getLsbD_xor]

/-- Settles O31: both shifts read VX alone, and VF is written last. -/
theorem shiftsInPlaceSetTheBitShiftedOut : Obligations.ShiftsInPlaceSetTheBitShiftedOut := by
  intro s x y
  refine ⟨?shr, ?shl⟩
  case shr =>
    refine ⟨_, rfl, fun notF => ?_, ?_, Alu.setVFlag_frame s x _ _⟩
    · rw [State.getV_setVFlag_self s _ _ notF, shiftRightByte_toNat]
    · rw [Alu.getV_setVFlag_F, lowBitFlag_toNat]
  case shl =>
    refine ⟨_, rfl, fun notF => ?_, ?_, Alu.setVFlag_frame s x _ _⟩
    · rw [State.getV_setVFlag_self s _ _ notF, shiftLeftByte_toNat]
    · rw [Alu.getV_setVFlag_F, highBitFlag_toNat]

/-- Settles O32: CXNN is one `setV`, of the masked random input. -/
theorem randomByteIsMasked : Obligations.RandomByteIsMasked := by
  intro s x nn rnd
  refine ⟨_, rfl, fun b _ => ?_, Alu.sameVBut_setV (s.withRnd rnd) x _, rfl,
    Alu.sameOutsideVPc_setV (s.withRnd rnd) x _⟩
  rw [State.getV_setV_self, BitVec.getLsbD_and, State.withRnd_rnd]

/-! ## The index register -/

/-- Settles O36: FX1E is one `setI`, of the sum reduced modulo 65536. -/
theorem addToIndexWrapsWithoutFlag : Obligations.AddToIndexWrapsWithoutFlag := fun s x =>
  ⟨_, rfl, addIndex_toNat s.i (s.getV x), IndexMemory.sameOutsideI_setI s _⟩

/-! ## Accesses through I -/

/-- Everything an instruction that writes memory alone keeps (R163, R164). -/
def SameOutsideMemory (s t : State) : Prop :=
  t.pc = s.pc ∧ SameV s t ∧ t.i = s.i ∧ SameStack s t ∧ SameKeys s t ∧ SameScreen s t ∧ SameTimers s t ∧ SameInputs s t

theorem sameOutsideMemory_setMem (s : State) (m : Memory) : SameOutsideMemory s (s.setMem m) :=
  ⟨rfl, State.setMem_getV s m, rfl, ⟨rfl, fun _ => rfl⟩, State.setMem_keyDown s m, State.setMem_pixel s m, ⟨rfl, rfl⟩,
    rfl, rfl, rfl⟩

theorem setVs_pc (s : State) (k : Nat) (bs : List Byte) : (s.setVs k bs).pc = s.pc := by
  rw [State.setVs_eq]

theorem sameOutsideVPc_setVs (s : State) (k : Nat) (bs : List Byte) : SameOutsideVPc s (s.setVs k bs) := by
  rw [State.setVs_eq]
  exact ⟨rfl, ⟨rfl, fun _ => rfl⟩, fun _ => rfl, fun _ _ => rfl, ⟨rfl, rfl⟩, fun _ => rfl, rfl, rfl, rfl⟩

/-- FX55 leaves Vk at I + k (R164). -/
theorem byte_of_stored_regs {s : State} {x : Nibble} (fits : s.i.toNat + (s.regsUpTo x).length ≤ 0x1000) (k : Nibble)
    (upToX : k.toNat ≤ x.toNat) :
    (written s.mem s.i.toNat (s.regsUpTo x)).get (s.i.toNat + k.toNat) = s.getV k := by
  have inList : k.toNat < (s.regsUpTo x).length := by
    rw [State.regsUpTo_length]
    omega
  rw [get_written_inside fits k.toNat inList, State.regsUpTo_getElem, BitVec.ofNat_toNat, BitVec.setWidth_eq]

/-- FX65 leaves the byte at I + k in Vk, and keeps the registers above VX (R165). -/
theorem getV_of_loaded_regs (s : State) (x k : Nibble) (a : Nat) :
    (s.setVs 0 ((List.range (x.toNat + 1)).map fun j => s.byte (a + j))).getV k =
      if k.toNat ≤ x.toNat then s.byte (a + k.toNat) else s.getV k := by
  rw [State.getV_setVs _ _ _ (by simp; omega)]
  by_cases upToX : k.toNat ≤ x.toNat
  · rw [dif_pos (by simp; omega), if_pos upToX]
    simp
  · rw [dif_neg (by simp; omega), if_neg upToX]

/-- Settles O37: FX33 stores the digit list at I, within the three bytes from I. -/
theorem bcdDigitsAreStored : Obligations.BcdDigitsAreStored := by
  intro s x
  refine ⟨fun inside => ?_, fun outside => (exec_ldB_splits s x).raises (by omega)⟩
  have fits : s.i.toNat + (bcdDigits (s.getV x)).length ≤ 0x1000 := by
    rw [bcdDigits_length]
    omega
  have digit := get_written_inside (m := s.mem) fits
  have := (s.getV x).isLt
  refine ⟨_, (exec_ldB_splits s x).completes fits, ?hundreds, ?tens, ?ones, fun a other => ?others,
    sameOutsideMemory_setMem s _⟩
  case hundreds =>
    refine (congrArg BitVec.toNat (digit 0 (by simp))).trans ?_
    simp [bcdDigits]
    omega
  case tens =>
    refine (congrArg BitVec.toNat (digit 1 (by simp))).trans ?_
    simp [bcdDigits]
    omega
  case ones =>
    refine (congrArg BitVec.toNat (digit 2 (by simp))).trans ?_
    simp [bcdDigits]
    omega
  case others => exact get_written_outside fits a (by rw [bcdDigits_length]; omega)

/-- Settles O38: FX55 stores the register list at I, within the X + 1 bytes from I. -/
theorem blockStoreResults : Obligations.BlockStoreResults := by
  intro s x
  have length := State.regsUpTo_length s x
  refine ⟨fun inside => ?_, fun outside => (exec_stRegs_splits s x).raises (by omega)⟩
  have fits : s.i.toNat + (s.regsUpTo x).length ≤ 0x1000 := by omega
  exact ⟨_, (exec_stRegs_splits s x).completes fits, byte_of_stored_regs fits,
    fun a other => get_written_outside fits a (by omega), sameOutsideMemory_setMem s _⟩

/-- Settles O39: FX65 writes the X + 1 bytes from I to the registers up to VX. -/
theorem blockLoadResults : Obligations.BlockLoadResults := by
  intro s x
  refine ⟨fun inside => ?_, fun outside => (exec_ldRegs_splits s x).raises (by omega)⟩
  refine ⟨_, (exec_ldRegs_splits s x).completes inside, fun k upToX => ?_, fun k above => ?_,
    setVs_pc s 0 _, sameOutsideVPc_setVs s 0 _⟩
  · rw [getV_of_loaded_regs, if_pos upToX]
  · rw [getV_of_loaded_regs, if_neg (by omega)]

/-- Settles O40: what FX55 stored at I + k is what FX65 loads into Vk. -/
theorem blockLoadRestoresWhatBlockStoreSaved : Obligations.BlockLoadRestoresWhatBlockStoreSaved := by
  intro s t u x h sameMemory sameI
  obtain ⟨fits, rfl⟩ := (exec_stRegs_splits s x).of_next h
  have length := State.regsUpTo_length s x
  obtain ⟨loads, -⟩ := blockLoadResults u x
  obtain ⟨w, completes, loaded, -⟩ := loads (by rw [sameI]; omega)
  refine ⟨w, completes, fun k upToX => ?_⟩
  rw [loaded k upToX, sameI, sameMemory]
  exact byte_of_stored_regs fits k upToX

/-- Settles O44: the two bytes at I are V0 and V1, and both are inside memory. -/
theorem fetchSeesAnEarlierStore : Obligations.FetchSeesAnEarlierStore := by
  intro s t u x nonzero h sameMem pcAtI
  obtain ⟨fits, rfl⟩ := (exec_stRegs_splits s x).of_next h
  have length := State.regsUpTo_length s x
  have twoRegs : 1 ≤ x.toNat := by
    have : x.toNat ≠ 0 := fun zero => nonzero (BitVec.eq_of_toNat_eq zero)
    omega
  have hi : u.byte u.pc.toNat = s.getV 0 := by
    rw [State.byte, sameMem, pcAtI]
    exact byte_of_stored_regs fits 0 (Nat.zero_le _)
  have lo : u.byte (u.pc.toNat + 1) = s.getV 1 := by
    rw [State.byte, sameMem, pcAtI]
    exact byte_of_stored_regs fits 1 twoRegs
  rw [fetch_ok u (by rw [pcAtI]; omega), hi, lo]

/-! ## Equal memories -/

/-- A listed byte is the one read at its address. -/
theorem get_of_mem {m : Memory} {c : Host.Cell} (sorted : m.Pairwise fun c d => c.1 < d.1) (mem : c ∈ m) :
    m.get c.1 = c.2 := by
  induction m with
  | nil => cases mem
  | cons d m ih =>
    obtain ⟨below, sorted⟩ := List.pairwise_cons.mp sorted
    rw [Memory.get]
    rcases List.mem_cons.mp mem with rfl | mem
    · rw [if_pos rfl]
    · rw [if_neg (below c mem).ne, ih sorted mem]

/-- A byte that differs from the reset contents is listed. -/
theorem mem_of_get_ne_reset {m : Memory} {a : Nat} (differs : m.get a ≠ Config.resetByte a) : (a, m.get a) ∈ m := by
  induction m with
  | nil => exact absurd rfl differs
  | cons d m ih =>
    rw [Memory.get] at differs ⊢
    split at differs
    · rename_i here
      rw [if_pos here, ← here]
      exact List.mem_cons_self
    · rename_i elsewhere
      rw [if_neg elsewhere]
      exact List.mem_cons_of_mem d (ih differs)

/-- The pairs of a canonical memory are the bytes that differ from the reset contents (log entry 3). -/
theorem mem_of_reads_alike {m n : Memory} (canonical : m.wf = true) (alike : ∀ a < 0x1000, m.get a = n.get a)
    (c : Host.Cell) (mem : c ∈ m) : c ∈ n := by
  obtain ⟨sorted, pairs⟩ := (Memory.wf_iff m).mp canonical
  obtain ⟨inside, differs⟩ := pairs c mem
  have reads : n.get c.1 = c.2 := (alike c.1 inside).symm.trans (get_of_mem sorted mem)
  have listed := mem_of_get_ne_reset (m := n) (a := c.1) (reads ▸ differs)
  rwa [reads] at listed

/-- Settles O41: both lists hold the bytes that differ from the reset contents, in rising order. -/
theorem canonicalMemoriesThatReadAlikeAreEqual : Obligations.CanonicalMemoriesThatReadAlikeAreEqual := by
  intro m n canonical canonical' alike
  have irreflexive : Std.Irrefl fun c d : Host.Cell => c.1 < d.1 := ⟨fun c => lt_irrefl c.1⟩
  have antisymmetric : Std.Antisymm fun c d : Host.Cell => c.1 < d.1 := ⟨fun _ _ h h' => absurd h' h.not_gt⟩
  refine ((Memory.wf_iff m).mp canonical).1.eq_of_mem_iff ((Memory.wf_iff n).mp canonical').1 fun c => ⟨?_, ?_⟩
  · exact mem_of_reads_alike canonical alike c
  · exact mem_of_reads_alike canonical' (fun a inside => (alike a inside).symm) c

end Sys2Proof.Proofs.Results

/-!
PROOFS of the statements on DXYN: the exclusive or with the sprite, the collision flag, zero rows and the second draw
(43_graphics.md section 2).
-/

namespace Sys2Proof.Proofs.Drawing

open Sys2Proof.Machine EveryInstruction

/-- Some set bit of the sprite falls on a pixel that is on. -/
def Collides (s : State) (vx vy : Byte) (n : Nibble) : Prop :=
  ∃ px py, SpriteSets s vx vy n px py ∧ s.pixel px py = true

section Drawn

variable (s : State) (x y n : Nibble)

/-- The rows read from memory set the pixels of the sprite at I (R181, R182). -/
theorem rowsSet_spriteRows (vx vy : Byte) (px : Fin 64) (py : Fin 32) :
    RowsSet vx vy 0 (s.spriteRows n) px py ↔ SpriteSets s vx vy n px py := by
  constructor
  · rintro ⟨r, hr, rfl, c, hc, bit, rfl⟩
    refine ⟨r, c, by simpa [State.spriteRows] using hr, hc, ?_, spriteColumn_val vx c, ?_⟩
    · simpa [State.spriteRows, spriteBit] using bit
    · rw [spriteRow_val, Nat.zero_add]
  · rintro ⟨r, c, hr, hc, bit, column, row⟩
    refine ⟨r, by simpa [State.spriteRows] using hr, Fin.ext ?_, c, hc, ?_, Fin.ext column⟩
    · rw [row, spriteRow_val, Nat.zero_add]
    · simpa [State.spriteRows, spriteBit] using bit

theorem spriteRows_length_le : (s.spriteRows n).length ≤ 32 := by
  have := n.isLt
  simp only [State.spriteRows, List.length_map, List.length_range]
  omega

/-- DXYN toggles the pixels the sprite sets. -/
theorem drawn_pixel (px : Fin 64) (py : Fin 32) :
    (SpriteSets s (s.getV x) (s.getV y) n px py → (drawn s x y n).pixel px py = !s.pixel px py) ∧
    (¬ SpriteSets s (s.getV x) (s.getV y) n px py → (drawn s x y n).pixel px py = s.pixel px py) := by
  rw [← rowsSet_spriteRows]
  exact (drawRows_spec (s.getV x) (s.getV y) 0 (s.spriteRows n) (spriteRows_length_le s n) (s.fb, false)).1 px py

/-- The drawing notes a collision exactly when there is one (R184). -/
theorem drawRows_collided_iff :
    (drawRows (s.getV x) (s.getV y) 0 (s.spriteRows n) (s.fb, false)).2 = true ↔
      Collides s (s.getV x) (s.getV y) n := by
  have collided :=
    (drawRows_spec (s.getV x) (s.getV y) 0 (s.spriteRows n) (spriteRows_length_le s n) (s.fb, false)).2
  simp only [rowsSet_spriteRows, Bool.false_eq_true, false_or] at collided
  exact collided

theorem drawn_getV_F_of_collision (collides : Collides s (s.getV x) (s.getV y) n) : (drawn s x y n).getV 0xF = 1 := by
  rw [drawn, State.getV_setV_self, (drawRows_collided_iff s x y n).mpr collides]
  rfl

theorem drawn_getV_F_of_no_collision (free : ¬ Collides s (s.getV x) (s.getV y) n) : (drawn s x y n).getV 0xF = 0 := by
  rw [drawn, State.getV_setV_self, Bool.eq_false_iff.mpr fun c => free ((drawRows_collided_iff s x y n).mp c)]
  rfl

theorem drawn_getV_F_eq_one_iff : (drawn s x y n).getV 0xF = 1 ↔ Collides s (s.getV x) (s.getV y) n := by
  refine ⟨fun one => ?_, drawn_getV_F_of_collision s x y n⟩
  by_contra free
  exact absurd (one.symm.trans (drawn_getV_F_of_no_collision s x y n free)) (by decide)

theorem drawn_sameVBut : SameVBut [0xF] s (drawn s x y n) :=
  fun _ other => State.getV_setV_ne _ _ (List.ne_of_not_mem_cons other)

/-- A sprite of no row sets no pixel. -/
theorem not_spriteSets_zero (vx vy : Byte) (px : Fin 64) (py : Fin 32) : ¬ SpriteSets s vx vy 0 px py := by
  rintro ⟨r, -, noRow, -⟩
  exact absurd noRow (Nat.not_lt_zero r)

end Drawn

/-- What a sprite sets depends on memory and I alone. -/
theorem spriteSets_congr {s u : State} (sameMemory : SameMemory s u) (sameI : u.i = s.i) (vx vy : Byte) (n : Nibble)
    (px : Fin 64) (py : Fin 32) : SpriteSets u vx vy n px py ↔ SpriteSets s vx vy n px py := by
  simp only [SpriteSets, sameI, sameMemory _]

/-! ## The obligations -/

/-- Settles O46: within one sprite no pixel is toggled twice (`drawRows_spec`), and the rows are those at I. -/
theorem drawXorsTheSpriteAndReportsCollision : Obligations.DrawXorsTheSpriteAndReportsCollision := by
  intro s x y n
  refine ⟨fun inside => ?_, fun rows outside => (exec_drw_splits s x y n).raises ?_⟩
  · have fits : n.toNat = 0 ∨ s.i.toNat + n.toNat ≤ 0x1000 := inside.imp_left (congrArg BitVec.toNat)
    exact ⟨drawn s x y n, (exec_drw_splits s x y n).completes fits, fun px py => (drawn_pixel s x y n px py).1,
      fun px py => (drawn_pixel s x y n px py).2, drawn_getV_F_of_collision s x y n,
      drawn_getV_F_of_no_collision s x y n, drawn_sameVBut s x y n, rfl, rfl, ⟨rfl, fun _ => rfl⟩, fun _ => rfl,
      ⟨rfl, rfl⟩, fun _ => rfl, rfl, rfl, rfl⟩
  · rintro (noRow | fits)
    · exact rows (BitVec.eq_of_toNat_eq noRow)
    · omega

/-- Settles O47: with no row DXYN completes whatever I is, and nothing is toggled. -/
theorem drawOfZeroRowsOnlyClearsVF : Obligations.DrawOfZeroRowsOnlyClearsVF := by
  intro s x y
  have sameScreen : SameScreen s (drawn s x y 0) := fun px py =>
    (drawn_pixel s x y 0 px py).2 (not_spriteSets_zero s _ _ px py)
  have free : ¬ Collides s (s.getV x) (s.getV y) 0 := fun ⟨px, py, sets, _⟩ => not_spriteSets_zero s _ _ px py sets
  exact ⟨drawn s x y 0, (exec_drw_splits s x y 0).completes (.inl rfl), sameScreen,
    drawn_getV_F_of_no_collision s x y 0 free, drawn_sameVBut s x y 0, rfl, rfl, ⟨rfl, fun _ => rfl⟩, fun _ => rfl,
    sameScreen, ⟨rfl, rfl⟩, fun _ => rfl, rfl, rfl, rfl⟩

/-- Settles O48: the second draw toggles the same pixels back, and one of them is on before it exactly when it was off
before the first. -/
theorem drawingTwiceRestoresTheFramebuffer : Obligations.DrawingTwiceRestoresTheFramebuffer := by
  intro s t u w x y n first sameScreen sameMemory sameI sameX sameY second
  obtain ⟨-, rfl⟩ := (exec_drw_splits s x y n).of_next first
  obtain ⟨-, rfl⟩ := (exec_drw_splits u x y n).of_next second
  have sameSprite : ∀ px py, SpriteSets u (u.getV x) (u.getV y) n px py ↔
      SpriteSets s (s.getV x) (s.getV y) n px py := by
    rw [sameX, sameY]
    exact spriteSets_congr sameMemory sameI (s.getV x) (s.getV y) n
  have toggled : ∀ px py, SpriteSets s (s.getV x) (s.getV y) n px py → u.pixel px py = !s.pixel px py :=
    fun px py sets => (sameScreen px py).trans ((drawn_pixel s x y n px py).1 sets)
  have kept : ∀ px py, ¬ SpriteSets s (s.getV x) (s.getV y) n px py → u.pixel px py = s.pixel px py :=
    fun px py clear => (sameScreen px py).trans ((drawn_pixel s x y n px py).2 clear)
  constructor
  · intro px py
    obtain ⟨toggledBack, keptAgain⟩ := drawn_pixel u x y n px py
    rw [sameSprite] at toggledBack keptAgain
    by_cases sets : SpriteSets s (s.getV x) (s.getV y) n px py
    · exact (toggledBack sets).trans (by rw [toggled px py sets, Bool.not_not])
    · exact (keptAgain sets).trans (kept px py sets)
  · refine (drawn_getV_F_eq_one_iff u x y n).trans (exists_congr fun px => exists_congr fun py => ?_)
    rw [sameSprite]
    refine and_congr_right fun sets => ?_
    rw [toggled px py sets, Bool.not_eq_true']

end Sys2Proof.Proofs.Drawing

/-!
PROOFS of the statements on the host's transactions and on runs: SET_KEY, LOAD and RESET, the run of `step` as a
schedule of STEPs, and the STEPs before any LOAD (60_exceptions.md section 5, 70_reset_and_hazards.md).
-/

namespace Sys2Proof.Proofs.HostRuns

open Sys2Proof.Machine EveryInstruction

/-! ## SET_KEY, LOAD, RESET -/

/-- Settles O54: SET_KEY is one `setKey`. -/
theorem setKeyWritesTheOneLatch : Obligations.SetKeyWritesTheOneLatch := by
  intro font s k pressed
  refine ⟨?_, fun j other => ?_, rfl, State.setKey_getV s k pressed, rfl, ⟨rfl, fun _ => rfl⟩,
    State.setKey_pixel s k pressed, ⟨rfl, rfl⟩, State.setKey_byte s k pressed, rfl, rfl, rfl⟩
  · exact (State.keyDown_setKey s k pressed k).trans (if_pos rfl)
  · exact (State.keyDown_setKey s k pressed j).trans (if_neg other)

/-- Settles O55: a LOAD that fits is one block write at 0x200, of at most the 3584 bytes from there to the end. -/
theorem loadCopiesTheProgramOrRefuses : Obligations.LoadCopiesTheProgramOrRefuses := by
  intro font s bytes
  refine ⟨fun fits => ?_, fun tooLong => ?_⟩
  · obtain ⟨m, loaded, inside, outside, -⟩ := State.load_ok s bytes fits
    have outcome : transact font (.load bytes) s = (s.setMem m, .ok) := by
      simp only [transact, loaded]
    exact ⟨_, outcome, inside, outside, Results.sameOutsideMemory_setMem s m⟩
  · simp only [transact, State.load_error s bytes tooLong]

/-- Settles O56: RESET and INITIALIZE are one function, whose memory is that of the font. -/
theorem resetRestoresEveryItem : Obligations.ResetRestoresEveryItem := by
  intro font s
  obtain ⟨fontBytes, otherBytes, canonical⟩ := Memory.ofFont_spec font
  refine ⟨rfl, rfl, fontBytes, otherBytes, fun x => ?registers, rfl, rfl, fun j => ?entries, fun k => ?latches,
    Framebuffer.pixel_clear, rfl, rfl, rfl, canonical, rfl, rfl, rfl⟩
  case registers => exact Vector.getElem_replicate x.isLt
  case entries => exact Vector.getElem_replicate j.isLt
  case latches => exact Vector.getElem_replicate k.isLt

/-! ## Runs, one STEP at either end -/

section Runs

variable {M : Host.Core} {k : Nat} {s s' t : M.State}

theorem run_succ_of_step (step : M.step s = .next s') : M.run (k + 1) s = M.run k s' := by
  rw [Host.Core.run, step]

theorem step_of_run_succ (run : M.run (k + 1) s = .next t) : ∃ s', M.step s = .next s' ∧ M.run k s' = .next t := by
  rw [Host.Core.run] at run
  cases step : M.step s with
  | next s' =>
    rw [step] at run
    exact ⟨s', rfl, run⟩
  | fault f =>
    rw [step] at run
    cases run
  | refused q =>
    rw [step] at run
    cases run

theorem run_one (s : M.State) : M.run 1 s = M.step s := by
  rw [Host.Core.run]
  cases M.step s <;> rfl

theorem run_succ_of_run (run : M.run k s = .next t) : M.run (k + 1) s = M.step t := by
  induction k generalizing s with
  | zero =>
    cases run
    exact run_one t
  | succ k ih =>
    obtain ⟨s', step, rest⟩ := step_of_run_succ run
    exact (run_succ_of_step step).trans (ih rest)

end Runs

/-! ## The host step is STEP with the supplied input -/

theorem next_of_mapNext {g : State → State} {result : Result} {t : State} (h : mapNext g result = .next t) :
    ∃ u, result = .next u ∧ g u = t := by
  cases result with
  | next u => exact ⟨u, rfl, Host.Outcome.next.inj h⟩
  | fault f => cases h
  | refused q => cases h

/-- A STEP sets the random input itself and reads nothing of the supply (log entry 1). -/
theorem stepWith_withSource (r b : Byte) (inputs : List Byte) (count : Nat) (s : State) :
    stepWith r (withSource b inputs count s) = mapNext (withSource r inputs count) (stepWith r s) := by
  have sameFetch : fetch (withSource b inputs count s) = fetch s := rfl
  rw [stepWith, stepWith, sameFetch]
  cases fetch s with
  | error f => rfl
  | ok op =>
    simp only
    cases decodeWord op with
    | error e => rfl
    | ok i => exact exec_withSource r inputs count (s.fetched r) i (.inl rfl)

theorem rnd_of_stepWith_next {r : Byte} {s t : State} (h : stepWith r s = .next t) : t.rnd = r := by
  obtain ⟨-, op, i, -, -, completes⟩ := stepWith_next r s t h
  obtain ⟨-, sameRnd, -⟩ := exec_keeps_inputs i _ t completes
  exact sameRnd

theorem runSchedule_step_of_next (font : Config.FontRom) {r : Byte} {s t : State} (sched : List Transaction)
    (h : stepWith r s = .next t) :
    runSchedule font (.step r :: sched) s = ((runSchedule font sched t).1, .ok :: (runSchedule font sched t).2) := by
  simp only [runSchedule, transact, Cycle.transactStep_of_next h]

/-- The state with the supply of inputs replaced, the STEP's own input kept (log entry 1). -/
def withSupply (inputs : List Byte) (count : Nat) (s : State) : State :=
  withSource s.rnd inputs count s

/-- The host step of a state with supplied inputs is STEP with the oldest, on a state with any supply. -/
theorem stepWith_of_step {r : Byte} {rs : List Byte} {s s' u : State} (supplied : s.rndInputs = r :: rs)
    (same : withSupply s.rndInputs s.stepCount u = s) (step : step s = .next s') :
    ∃ u', stepWith r u = .next u' ∧ s'.rndInputs = rs ∧ withSupply s'.rndInputs s'.stepCount u' = s' := by
  have oldest : s.nextRnd = r := by simp only [State.nextRnd, supplied]
  have taken : s.takeRnd = withSource u.rnd rs (s.stepCount + 1) u := by
    rw [State.takeRnd, supplied, ← same]
    rfl
  rw [Machine.step, oldest, taken, stepWith_withSource] at step
  obtain ⟨u', completes, rfl⟩ := next_of_mapNext step
  refine ⟨u', completes, rfl, ?_⟩
  rw [withSupply, rnd_of_stepWith_next completes]
  rfl

theorem run_is_schedule (font : Config.FontRom) (inputs : List Byte) {s t u : State} (supplied : s.rndInputs = inputs)
    (same : withSupply s.rndInputs s.stepCount u = s)
    (run : Host.Core.run Sys2Proof.core inputs.length s = .next t) :
    ErrFree font (inputs.map .step) u ∧
      withSupply t.rndInputs t.stepCount (runSchedule font (inputs.map .step) u).1 = t := by
  induction inputs generalizing s u with
  | nil =>
    cases run
    exact ⟨fun f => List.not_mem_nil, same⟩
  | cons r rs ih =>
    obtain ⟨s', step, rest⟩ := step_of_run_succ run
    obtain ⟨u', completes, supplied', same'⟩ := stepWith_of_step supplied same step
    obtain ⟨errFree, ends⟩ := ih supplied' same' rest
    have schedule := runSchedule_step_of_next font (rs.map .step) completes
    refine ⟨fun f => ?_, ?_⟩
    · rw [List.map_cons, schedule]
      exact List.not_mem_cons_of_ne_of_not_mem nofun (errFree f)
    · rw [List.map_cons, schedule]
      exact ends

/-- Settles O58, by induction on the inputs. -/
theorem coreRunIsTheScheduleOfSteps : Obligations.CoreRunIsTheScheduleOfSteps := fun font inputs _ _ supplied run =>
  run_is_schedule font inputs supplied rfl run

/-! ## The STEPs before any LOAD (70_reset_and_hazards.md R254) -/

/-- Everything of the core but `pc` is as after reset; the random source's fields are free. -/
structure AsReset (pc : Nat) (t : State) : Prop where
  pc_eq : t.pc.toNat = pc
  sameV : SameV State.reset t
  i_eq : t.i = 0
  sameStack : SameStack State.reset t
  sameKeys : SameKeys State.reset t
  sameScreen : SameScreen State.reset t
  sameTimers : SameTimers State.reset t
  sameMemory : SameMemory State.reset t

theorem asReset_reset : AsReset 0x200 State.reset :=
  ⟨rfl, fun _ => rfl, rfl, ⟨rfl, fun _ => rfl⟩, fun _ => rfl, fun _ _ => rfl, ⟨rfl, rfl⟩, fun _ => rfl⟩

theorem reset_byte_eq_zero {a : Nat} (aboveFont : 80 ≤ a) : State.reset.byte a = 0 :=
  dif_neg (Nat.not_lt.mpr aboveFont)

theorem AsReset.step {p : Nat} {t : State} (h : AsReset p t) (aboveFont : 80 ≤ p) (inRange : p ≤ 0xFFE) :
    ∃ u, Machine.step t = .next u ∧ AsReset (p + 2) u := by
  have zero : ∀ a, 80 ≤ a → t.byte a = 0 := fun a above => (h.sameMemory a).trans (reset_byte_eq_zero above)
  have pc := h.pc_eq
  obtain ⟨u, stepped, advances, sameV, sameI, sameStack, sameKeys, sameScreen, sameTimers, sameMemory, -⟩ :=
    ControlFlow.stepOverZeroedMemoryOnlyAdvances t (by omega) (zero _ (by omega)) (zero _ (by omega))
  refine ⟨u, stepped, by omega, fun r => (sameV r).trans (h.sameV r), sameI.trans h.i_eq,
    ⟨sameStack.1.trans h.sameStack.1, fun j => (sameStack.2 j).trans (h.sameStack.2 j)⟩,
    fun k => (sameKeys k).trans (h.sameKeys k), fun x y => (sameScreen x y).trans (h.sameScreen x y),
    ⟨sameTimers.1.trans h.sameTimers.1, sameTimers.2.trans h.sameTimers.2⟩,
    fun a => (sameMemory a).trans (h.sameMemory a)⟩

theorem run_reset (k : Nat) (inMemory : k ≤ 1792) :
    ∃ t, Host.Core.run Sys2Proof.core k State.reset = .next t ∧ AsReset (0x200 + 2 * k) t := by
  induction k with
  | zero => exact ⟨_, rfl, asReset_reset⟩
  | succ k ih =>
    obtain ⟨t, run, asReset⟩ := ih (by omega)
    obtain ⟨u, stepped, asReset'⟩ := asReset.step (by omega) (by omega)
    exact ⟨u, (run_succ_of_run run).trans stepped, asReset'⟩

theorem step_at_end {s : State} (atEnd : s.pc = 0x1000) : step s = .fault (.memoryBounds 0x1000 none 0x1000) := by
  have pastEnd : s.takeRnd.pc.toNat ≥ 0xFFF := by
    rw [State.takeRnd_pc, atEnd]
    decide
  rw [Machine.step, Cycle.stepWith_of_pastEnd s.nextRnd pastEnd, State.takeRnd_pc, atEnd]
  rfl

/-- Settles O57, by induction on the STEPs: every word from 0x200 on is 0000, and the last `pc` is 0x1000. -/
theorem stepsBeforeLoadRunNopsToTheEndOfMemory : Obligations.StepsBeforeLoadRunNopsToTheEndOfMemory := by
  constructor
  · intro k inMemory
    obtain ⟨t, run, pc, sameV, sameI, sameStack, sameKeys, sameScreen, sameTimers, sameMemory⟩ := run_reset k inMemory
    exact ⟨t, run, pc, sameV, sameI, sameStack, sameKeys, sameScreen, sameTimers, sameMemory⟩
  · obtain ⟨t, run, asReset⟩ := run_reset 1792 (le_refl 1792)
    have atEnd : t.pc = 0x1000 := BitVec.eq_of_toNat_eq asReset.pc_eq
    exact (run_succ_of_run run).trans (step_at_end atEnd)

end Sys2Proof.Proofs.HostRuns
